-- ==== Sys2Proof/Word.lean ====
section
/-! DEFINITION. The value types of the core (00_scope.md R7, R9) and the parts of a machine that are built from them only:
the 16-word matrix, a quadruple of matrix indices, a byte string. -/

namespace Sys2Proof

/-- `u8` of R9. -/
abbrev Byte := BitVec 8

/-- `u32` of R9: one word of the matrix. -/
abbrev Word := BitVec 32

/-- `u64` of R9: an address, a length, a descriptor word, a status register. -/
abbrev DWord := BitVec 64

/-- A 16-word matrix (R7, R22, R100). -/
abbrev Matrix := Vector Word 16

/-- A byte string of R11, first byte first. -/
abbrev Bytes := List Byte

/-- The four word indices of a quarter-round with their roles `a`, `b`, `c`, `d` (40_permutation.md R101).
A quarter-round with repeated indices is refused by this type: such a quadruple cannot be built (R101 corner case 4). -/
structure Quad where
  a : Fin 16
  b : Fin 16
  c : Fin 16
  d : Fin 16
  /-- The indices are pairwise distinct. -/
  distinct : [a, b, c, d].Nodup := by decide
  deriving DecidableEq, Repr

end Sys2Proof
end

