-- ==== Sys2Proof/Syntax.lean ====
section
/-! DEFINITION. The commands of the opcode table, the descriptor that carries one, the reasons a descriptor is rejected, and the
spec's assembler listings (30_encoding.md R71 to R81). -/

namespace Sys2Proof

/-- A command descriptor: four 64-bit words (R71). -/
structure Descriptor where
  d0 : DWord
  d1 : DWord
  d2 : DWord
  d3 : DWord
  deriving DecidableEq, Repr

/-- The four assigned values of the 8-bit `OPC` field (R74). -/
inductive Opcode where
  | init
  | crypt
  | discard
  | hchacha20
  deriving DecidableEq, Repr

/-- The commands, one constructor per row of the opcode table. A command holds the operands it uses and no others (R73): an
operand that must be 0 has no field, so an ill-formed command cannot be written. -/
inductive Instr where
  /-- INIT A, B: `a` is the key's address, `b` the nonce's (42_keystream.md R130). -/
  | init (a b : DWord)
  /-- CRYPT A, B, C: input address, output address, length in bytes (43_stream.md R150). -/
  | crypt (a b c : DWord)
  /-- DISCARD C: length in bytes (43_stream.md R153). -/
  | discard (c : DWord)
  /-- HCHACHA20 A, B, C: key address, nonce address, subkey output address (41_subkey.md R120). -/
  | hchacha20 (a b c : DWord)
  deriving DecidableEq, Repr

/-- Why decoding rejects a descriptor (R75, R76). Each becomes the fault of the same name. -/
inductive Reject where
  /-- `OPC` is not 0x01 to 0x04; the information word is the whole of `D0`. -/
  | illegalOpcode (d0 : DWord)
  /-- `RSV` is not 0 (`w = 0`), or operand word `w` must be 0 and is not. -/
  | reservedNonzero (w : Fin 4)
  deriving DecidableEq, Repr

/-- The names a listing may use: the four commands and the four pseudo-instructions (R79, R80). -/
inductive Mnemonic where
  | init
  | crypt
  | discard
  | hchacha20
  | encrypt
  | decrypt
  | cryptip
  | skip
  deriving DecidableEq, Repr

/-- One line of a listing: a mnemonic and its operands, before any range check (R79). -/
structure Line where
  mnemonic : Mnemonic
  operands : List Nat
  deriving DecidableEq, Repr

/-- Why the assembler refuses a line (R79). -/
inductive AsmError where
  /-- The first word is no mnemonic of R79 or R80. -/
  | unknownMnemonic
  /-- An operand is no unsigned integer in decimal or `0x` hexadecimal. -/
  | badOperand
  /-- The line has more or fewer operands than its mnemonic takes. -/
  | operandCount
  /-- An operand does not fit in 64 bits. -/
  | operandTooLarge
  deriving DecidableEq, Repr

end Sys2Proof
end

