-- ==== Sys2Proof/WellFormed.lean ====
section
/-! DEFINITION. The checks on raw syntax. A term of `Instr` is well formed by its type (it holds exactly the 64-bit operands its
command uses); what can be ill formed is a descriptor the host submits (30_encoding.md R73 to R76) and a line of a listing (R79). -/

namespace Sys2Proof

/-- The low byte of `D0` is an assigned opcode (R74). -/
def Descriptor.opcodeAssigned (d : Descriptor) : Bool :=
  decide (1 ≤ d.d0.toNat % 256 ∧ d.d0.toNat % 256 ≤ 4)

/-- The 56 high bits of `D0` are 0 (R71). -/
def Descriptor.reservedZero (d : Descriptor) : Bool :=
  decide (d.d0.toNat / 256 = 0)

/-- Every operand the command does not use is 0 (R73): INIT's `C`, DISCARD's `A` and `B`. -/
def Descriptor.unusedZero (d : Descriptor) : Bool :=
  match d.d0.toNat % 256 with
  | 1 => decide (d.d3 = 0)
  | 3 => decide (d.d1 = 0) && decide (d.d2 = 0)
  | _ => true

/-- A descriptor that selects a command (R74, R75). -/
def Descriptor.wellFormed (d : Descriptor) : Bool :=
  d.opcodeAssigned && d.reservedZero && d.unusedZero

/-- How many operands a listing writes after a mnemonic (R79, R80). -/
def Mnemonic.arity : Mnemonic → Nat
  | .init => 2
  | .crypt => 3
  | .discard => 1
  | .hchacha20 => 3
  | .encrypt => 3
  | .decrypt => 3
  | .cryptip => 2
  | .skip => 1

/-- The line writes as many operands as its mnemonic takes (R79). -/
def Line.arityOk (l : Line) : Bool := l.operands.length == l.mnemonic.arity

/-- Every operand of the line fits in 64 bits (R79). -/
def Line.operandsFit (l : Line) : Bool := l.operands.all (fun n => decide (n < 2 ^ 64))

/-- A line the assembler accepts (R79). -/
def Line.wellFormed (l : Line) : Bool := l.arityOk && l.operandsFit

end Sys2Proof
end

