-- ==== Sys2Proof/Decode.lean ====
section
/-! DEFINITION. Decoding a descriptor (30_encoding.md R71 to R76), total on every 256 bits and rejecting by name, and the
encoder written from the same tables. -/

namespace Sys2Proof

/-- `OPC` is `D0[7:0]` (R71). -/
def Descriptor.opc (d : Descriptor) : Byte := d.d0.extractLsb' 0 8

/-- `RSV` is `D0[63:8]` (R71). -/
def Descriptor.rsv (d : Descriptor) : BitVec 56 := d.d0.extractLsb' 8 56

/-- Word `Dw` of the descriptor. -/
def Descriptor.word (d : Descriptor) (w : Fin 4) : DWord :=
  match w with
  | 0 => d.d0
  | 1 => d.d1
  | 2 => d.d2
  | 3 => d.d3

/-- Operand `A` is the whole of `D1` (R71, R73). -/
def Descriptor.a (d : Descriptor) : DWord := d.word 1

/-- Operand `B` is the whole of `D2` (R71, R73). -/
def Descriptor.b (d : Descriptor) : DWord := d.word 2

/-- Operand `C` is the whole of `D3` (R71, R73). -/
def Descriptor.c (d : Descriptor) : DWord := d.word 3

/-- The descriptor as one 256-bit value: bit `k` is bit `k mod 64` of word `D(k div 64)` (R71). -/
def Descriptor.toBits (d : Descriptor) : BitVec 256 := d.d3 ++ d.d2 ++ d.d1 ++ d.d0

/-- The descriptor whose 256 bits are `v` (R71). -/
def Descriptor.ofBits (v : BitVec 256) : Descriptor :=
  { d0 := v.extractLsb' 0 64, d1 := v.extractLsb' 64 64, d2 := v.extractLsb' 128 64, d3 := v.extractLsb' 192 64 }

/-- `bytes64(v)`: the 8 bytes of `v`, least significant first (R72). -/
def bytes64 (v : DWord) : Bytes :=
  [v.extractLsb' 0 8, v.extractLsb' 8 8, v.extractLsb' 16 8, v.extractLsb' 24 8,
   v.extractLsb' 32 8, v.extractLsb' 40 8, v.extractLsb' 48 8, v.extractLsb' 56 8]

/-- The 32-byte spelling of a descriptor in listings (R72). -/
def Descriptor.toBytes (d : Descriptor) : Bytes := bytes64 d.d0 ++ bytes64 d.d1 ++ bytes64 d.d2 ++ bytes64 d.d3

/-- The 64-bit value whose 8 bytes, least significant first, start the byte string at `8 * j`. -/
def le64 (b : Bytes) (j : Nat) : DWord :=
  b.getD (8 * j + 7) 0 ++ b.getD (8 * j + 6) 0 ++ b.getD (8 * j + 5) 0 ++ b.getD (8 * j + 4) 0 ++
    b.getD (8 * j + 3) 0 ++ b.getD (8 * j + 2) 0 ++ b.getD (8 * j + 1) 0 ++ b.getD (8 * j) 0

/-- Reading a descriptor back from its 32 bytes; no other length is a descriptor (R72, R78). -/
def Descriptor.ofBytes (b : Bytes) : Option Descriptor :=
  if b.length = 32 then some { d0 := le64 b 0, d1 := le64 b 1, d2 := le64 b 2, d3 := le64 b 3 } else none

/-- The opcode map (R74). -/
def Opcode.ofByte (b : Byte) : Option Opcode :=
  match b.toNat with
  | 1 => some .init
  | 2 => some .crypt
  | 3 => some .discard
  | 4 => some .hchacha20
  | _ => none

/-- The value of `OPC` that selects a command (R74). -/
def Opcode.toByte : Opcode → Byte
  | .init => 0x01
  | .crypt => 0x02
  | .discard => 0x03
  | .hchacha20 => 0x04

/-- The operand words that must be 0 for a command, lowest index first (R73, R75 step 3). -/
def Opcode.mustBeZero : Opcode → List (Fin 4)
  | .init => [3]
  | .crypt => []
  | .discard => [1, 2]
  | .hchacha20 => []

/-- The command an opcode makes of a descriptor's operands (R73, R75 step 4). -/
def Descriptor.select (d : Descriptor) : Opcode → Instr
  | .init => .init d.a d.b
  | .crypt => .crypt d.a d.b d.c
  | .discard => .discard d.c
  | .hchacha20 => .hchacha20 d.a d.b d.c

/-- Decoding, the steps of R75 in order, stopping at the first that rejects. -/
def decode (d : Descriptor) : Except Reject Instr :=
  match Opcode.ofByte d.opc with
  | none => .error (.illegalOpcode d.d0)
  | some op =>
    if d.rsv = 0 then
      match op.mustBeZero.find? (fun w => d.word w != 0) with
      | some w => .error (.reservedNonzero w)
      | none => .ok (d.select op)
    else .error (.reservedNonzero 0)

/-- The opcode of a command (R74). -/
def Instr.opcode : Instr → Opcode
  | .init _ _ => .init
  | .crypt _ _ _ => .crypt
  | .discard _ => .discard
  | .hchacha20 _ _ _ => .hchacha20

/-- `D0` of a command's descriptor: the opcode with `RSV = 0` (R74). -/
def Instr.d0 (i : Instr) : DWord := i.opcode.toByte.setWidth 64

/-- The descriptor of a command (R79): operands in their words, 0 in every word the command does not use. -/
def encode (i : Instr) : Descriptor :=
  match i with
  | .init a b => { d0 := i.d0, d1 := a, d2 := b, d3 := 0 }
  | .crypt a b c => { d0 := i.d0, d1 := a, d2 := b, d3 := c }
  | .discard c => { d0 := i.d0, d1 := 0, d2 := 0, d3 := c }
  | .hchacha20 a b c => { d0 := i.d0, d1 := a, d2 := b, d3 := c }

/-- The descriptor whose low `nbits` bits are `w` and whose other bits are 0 (the host's numbering of an opcode-table row,
which is R71's). -/
def Descriptor.ofTableWord (nbits w : Nat) : Descriptor := Descriptor.ofBits (BitVec.ofNat 256 (w % 2 ^ nbits))

/-- The command the decoder reads from an opcode-table row's word. -/
def decodeTableWord (nbits w : Nat) : Option Instr := (decode (Descriptor.ofTableWord nbits w)).toOption

end Sys2Proof
end

