-- ==== Sys2Proof/Config.lean ====
section
/-! DEFINITION. What a platform fixes and the spec leaves open (00_scope.md R8), and the free values: what the spec leaves
unspecified and the model must not constrain (93_implementation_defined.md I1, I2). A free value is an opaque constant with no
body, so that no proof can know any value of it. Each is applied to the number of draws made so far and to the old `ST`, `KS` and
`pos`, in this order, so that it may also be what the machine held before. -/

namespace Sys2Proof.Config

/-- The values `MEM_SIZE` may take: 1 ≤ MEM_SIZE ≤ 2^64 (R8, 92_eei_decisions.md D6). -/
abbrev legalMemSize (n : Nat) : Prop := 1 ≤ n ∧ n ≤ 2 ^ 64

/-- The values `NUM_INSTANCES` may take: at least 1 (R8, 92_eei_decisions.md D22). -/
abbrev legalNumInstances (n : Nat) : Prop := 1 ≤ n

/-- The `MEM_SIZE` of the state after reset. DESIGN CHOICE (unsafe, log entry 1): the spec leaves the size open; 0x1000 is the
size its vectors and programs use (95_test_vectors.md, Conventions). The size stands in `State`, and every statement is about
every size. -/
def memSize : Nat := 0x1000

/-- The words of `ST` after a RESET interaction (10_state.md R38, 70_reset_and_hazards.md R190: "they may keep their old values
or take any value"). Free value (log entry 3). -/
opaque freeST : Nat → Matrix → Matrix → BitVec 7 → Matrix

/-- The words of `KS` after a RESET interaction (R38, R190). Free value (log entry 3). -/
opaque freeKS : Nat → Matrix → Matrix → BitVec 7 → Matrix

/-- `pos` after a RESET interaction (R38, R190). Free value (log entry 3). -/
opaque freePos : Nat → Matrix → Matrix → BitVec 7 → BitVec 7

/-- What READ_REG CTR returns while `INITED = 0` (10_state.md R35). Free value (log entry 4). -/
opaque freeCtrRead : Nat → Matrix → Matrix → BitVec 7 → DWord

/-- What bits 6:0 of READ_REG POS return while `INITED = 0` (10_state.md R35). Free value (log entry 4). -/
opaque freePosRead : Nat → Matrix → Matrix → BitVec 7 → BitVec 7

end Sys2Proof.Config
end

