-- ==== Sys2Proof/Machine/State.lean ====
section
/-! DEFINITION. What the machine is: the state of one core (10_state.md R21), the buffer memory it shares with the host
(20_memory.md R50), the host's side of the interface (30_encoding.md R83), and the reasons a step can stop. -/

namespace Sys2Proof.Machine

/-- Buffer memory: the bytes that differ from what an unlisted address reads as, by address (20_memory.md R50, R53).
`Memory.wf` (Machine/Ops.lean) is its canonical form. -/
abbrev Memory := List Host.Cell

/-- The cipher state, "mutable, owned by one cipher instance" (10_state.md R21). -/
structure Cipher where
  /-- `ST[0..15]`, the ChaCha working matrix (R22). -/
  st : Matrix
  /-- `KS[0..15]`, the most recent keystream block (R25). -/
  ks : Matrix
  /-- `pos`, the cursor (R27). -/
  pos : BitVec 7
  deriving DecidableEq, Repr

/-- What the host can do to the core: exactly these four kinds of interaction (30_encoding.md R83), memory access being a read
or a write of one byte. -/
inductive HostAction where
  /-- SUBMIT(d) (R70). -/
  | submit (d : Descriptor)
  /-- READ_REG(i) (10_state.md R35). -/
  | readReg (i : BitVec 8)
  /-- The host reads a byte of buffer memory between commands. -/
  | readMem (a : DWord)
  /-- The host writes a byte of buffer memory between commands. -/
  | writeMem (a : DWord) (v : Byte)
  /-- RESET (70_reset_and_hazards.md R190). -/
  | reset
  deriving DecidableEq, Repr

/-- What a host read gave the host. -/
inductive HostReply where
  /-- READ_REG(i) returned `v`. -/
  | reg (i : BitVec 8) (v : DWord)
  /-- The byte at `a` read as `v`. -/
  | byte (a : DWord) (v : Byte)
  deriving DecidableEq, Repr

/-- The fault causes that are raised (60_exceptions.md R171). -/
inductive Cause where
  | illegalOpcode
  | reservedNonzero
  | notInitialized
  | access
  | overlap
  deriving DecidableEq, Repr

/-- The state of the machine. The first nine fields are the core's and its command index (R21, R33), `mem` and `memSize` are the
platform's (R50, R8), and the last three are the MODEL's own: the host's interactions still to come, what the host's reads
returned, and how many free values have been drawn (log entries 3 to 6). -/
structure State where
  /-- `ST`, `KS` and `pos` (R21). -/
  cipher : Cipher
  /-- `INITED`: an INIT has completed since reset (R29). -/
  inited : Bool
  /-- `FAULT`: a fault has been recorded (R30). -/
  fault : Bool
  /-- `CAUSE`: the cause code of the recorded fault (R30). -/
  cause : BitVec 8
  /-- `INFO`: the fault's information word (R30). -/
  info : DWord
  /-- `BUSY`: a command is executing (R31). -/
  busy : Bool
  /-- The command index: how many commands have been accepted since reset (R33). -/
  cmdIndex : Nat
  /-- Buffer memory (R50). -/
  mem : Memory
  /-- `MEM_SIZE`, the parameter of the launch; no step writes it (R8). -/
  memSize : Nat
  /-- MODEL: the host's interactions still to come, next first (60_exceptions.md R189). -/
  script : List HostAction
  /-- MODEL: what the host's reads returned, newest first. -/
  replies : List HostReply
  /-- MODEL: how many free values have been drawn. -/
  draws : Nat
  deriving DecidableEq, Repr

/-- Why the machine has no next state. -/
inductive Fault where
  /-- Raised by a step whose next interaction is a SUBMIT while `FAULT = 1`: the port accepts nothing until reset and the spec
  has no step there (30_encoding.md R70, 60_exceptions.md R174). Safe: no claim reaches past it (log
  entry 8). -/
  | haltedByFault
  /-- Raised by a step whose next interaction is a SUBMIT while `BUSY = 1`: the port does not accept (R70). No state between
  commands has `BUSY = 1` (R31), so no run reaches it. Safe (log entry 8). -/
  | portBusy
  /-- Raised by a host read or write of an address at or beyond `MEM_SIZE`, which names no byte (20_memory.md R50). Safe (log
  entry 9). -/
  | hostOutsideMemory (a : DWord)
  deriving DecidableEq, Repr

/-- Why the model gives an instruction no meaning. -/
inductive Refusal where
  /-- Raised by an arm of `exec` whose instruction has no meaning yet; no arm does. Safe. -/
  | notModelled (mnemonic : String)
  deriving DecidableEq, Repr

/-- The state after reset (10_state.md R38), with no host interaction to come and no byte of memory listed. `INITED`, `FAULT`,
`CAUSE`, `INFO`, `BUSY` and the command index have the spec's values. DESIGN CHOICE (unsafe, log entry 2): `ST`, `KS` and `pos`,
which the spec leaves unspecified, are zero here; log entry 1 for `memSize`. -/
def State.reset : State where
  cipher := { st := Vector.replicate 16 0, ks := Vector.replicate 16 0, pos := 0 }
  inited := false
  fault := false
  cause := 0
  info := 0
  busy := false
  cmdIndex := 0
  mem := []
  memSize := Config.memSize
  script := []
  replies := []
  draws := 0

end Sys2Proof.Machine
end

