-- ==== Sys2Proof/Machine/Ops.lean ====
section
/-! DEFINITION. The shared operations: bytes and words, buffer memory, the block counter and the keystream byte, accepting and
completing a command, fault entry and reset. -/

namespace Sys2Proof.Machine

/-! ## Bytes and words (00_scope.md R11, 20_memory.md R51) -/

/-- `le32(b, j)`: word `j` of a byte string, little-endian. Every use in the model is of a byte string that holds
the word; a byte past the end reads as 0 only so that the function is total (log entry 12). -/
def le32 (b : Bytes) (j : Nat) : Word :=
  (b.getD (4 * j) 0).setWidth 32 ||| (b.getD (4 * j + 1) 0).setWidth 32 <<< 8 |||
    (b.getD (4 * j + 2) 0).setWidth 32 <<< 16 ||| (b.getD (4 * j + 3) 0).setWidth 32 <<< 24

/-- `bytes32(w)`: the 4 bytes of a word, least significant first. -/
def bytes32 (w : Word) : Bytes :=
  [w.extractLsb' 0 8, w.extractLsb' 8 8, w.extractLsb' 16 8, w.extractLsb' 24 8]

/-- `SIGMA`, the four words of "expand 32-byte k" (R13). -/
def sigma : Vector Word 4 := #v[0x61707865, 0x3320646e, 0x79622d32, 0x6b206574]

/-- The matrix whose word `i` is `f i`. -/
def tabulate (f : Fin 16 → Word) : Matrix :=
  #v[f 0, f 1, f 2, f 3, f 4, f 5, f 6, f 7, f 8, f 9, f 10, f 11, f 12, f 13, f 14, f 15]

/-! ## Buffer memory (20_memory.md R50, R53, R58) -/

/-- What an address that is not listed reads as. DESIGN CHOICE (unsafe, log entry 7): memory contents are a parameter of the
launch (R53), and 0 is the byte the spec's vectors put where they list nothing. -/
def Memory.unlisted : Byte := 0

/-- The canonical form: addresses strictly rising, and no entry equal to what an unlisted address reads as. -/
abbrev Memory.wf (m : Memory) : Prop :=
  m.Pairwise (fun x y => x.1 < y.1) ∧ ∀ x ∈ m, x.2 ≠ Memory.unlisted

/-- Reading one byte; it has no other effect (R58). -/
def Memory.read : Memory → Nat → Byte
  | [], _ => Memory.unlisted
  | (k, v) :: m, a => if a = k then v else Memory.read m a

/-- The memory `(k, v) :: m`, without the entry where `v` is what an unlisted address reads as. -/
def Memory.cons (k : Nat) (v : Byte) (m : Memory) : Memory :=
  if v = Memory.unlisted then m else (k, v) :: m

/-- Writing one byte changes only that byte (R58). -/
def Memory.write : Memory → Nat → Byte → Memory
  | [], a, v => Memory.cons a v []
  | (k, w) :: m, a, v =>
    if a < k then Memory.cons a v ((k, w) :: m)
    else if a = k then Memory.cons a v m
    else (k, w) :: Memory.write m a v

/-- `MemRead(a, n)`: the `n` bytes from `a` on (00_scope.md R12). -/
def Memory.readBytes (m : Memory) : Nat → Nat → Bytes
  | _, 0 => []
  | a, n + 1 => m.read a :: m.readBytes (a + 1) n

/-- `MemWrite(a, n, s)`, with `n` the length of `s`: byte `j` of `s` goes to `a + j` (R12). -/
def Memory.writeBytes (m : Memory) : Nat → Bytes → Memory
  | _, [] => m
  | a, v :: s => (m.write a v).writeBytes (a + 1) s

/-! ## The block counter and the keystream byte (10_state.md R23, R26; 42_keystream.md R135) -/

/-- `CTR = ST[13]:ST[12]`, `ST[13]` the high half (R23). -/
def Cipher.ctr (c : Cipher) : DWord := c.st[13] ++ c.st[12]

/-- A working matrix with counter `v`: the low half in word 12, the high half in word 13 (R23). -/
def withCtr (v : DWord) (st : Matrix) : Matrix := (st.set 12 (v.extractLsb' 0 32)).set 13 (v.extractLsb' 32 32)

/-- `CTR <- v` (R23). -/
def Cipher.setCtr (v : DWord) (c : Cipher) : Cipher := { c with st := withCtr v c.st }

/-- `INC_CTR(k)`: the counter advances by `k` modulo 2^64; no carry out, no flag (R135). -/
def Cipher.incCtr (k : DWord) (c : Cipher) : Cipher := c.setCtr (c.ctr + k)

/-- `KSBYTE(p)` of a keystream block: byte `p mod 4` of word `p div 4`, least significant first (R26). It is used for `p` in
0..63; the index is taken modulo 16 words only so that the function is total (log entry 12). -/
def ksByte (ks : Matrix) (p : Nat) : Byte := ks[Fin.ofNat 16 (p / 4)].extractLsb' (8 * (p % 4)) 8

/-! ## Accepting, completing and faulting (30_encoding.md R70, 60_exceptions.md R170 to R174) -/

/-- Acceptance of a descriptor: `BUSY <- 1` and the command index advances by one (R70, R33). -/
def State.accept (s : State) : State := { s with busy := true, cmdIndex := s.cmdIndex + 1 }

/-- A command that has run to its end: `BUSY <- 0` (R70, R170). -/
def State.complete (s : State) : State := { s with busy := false }

/-- The cause codes (60_exceptions.md R171). -/
def Cause.code : Cause → BitVec 8
  | .illegalOpcode => 0x01
  | .reservedNonzero => 0x02
  | .notInitialized => 0x03
  | .access => 0x04
  | .overlap => 0x05

/-- FAULT ENTRY (R172): `FAULT <- 1`, `CAUSE <- cause`, `INFO <- info`, `BUSY <- 0`, and nothing else. There is no program counter
to save, no mode to change and no vector. -/
def State.faultEntry (cause : Cause) (info : DWord) (s : State) : State :=
  { s with fault := true, cause := cause.code, info := info, busy := false }

/-- `raise Fault(cause, info)` (00_scope.md R12): the command ends in the faulted outcome of R170, which is a next state. -/
def raise (cause : Cause) (info : DWord) (s : State) : Host.Outcome State Fault Refusal :=
  .next (s.faultEntry cause info)

/-- The fault a rejected descriptor raises: its cause (R75, R175, R179). -/
def rejectCause : Reject → Cause
  | .illegalOpcode _ => .illegalOpcode
  | .reservedNonzero _ => .reservedNonzero

/-- The fault a rejected descriptor raises: its information word (R75, R171). -/
def rejectInfo : Reject → DWord
  | .illegalOpcode d0 => d0
  | .reservedNonzero w => BitVec.ofNat 64 w.val

/-- RESET, the only way out of a fault (R174; 70_reset_and_hazards.md R190): `INITED`, `FAULT`, `CAUSE`, `INFO`, `BUSY` and the
command index become 0; `ST`, `KS` and `pos` become unspecified, which are free values (log entry 3) that may be the old ones; buffer memory is not
touched. -/
def State.hostReset (s : State) : State :=
  { s with
    cipher :=
      { st := Config.freeST s.draws s.cipher.st s.cipher.ks s.cipher.pos
        ks := Config.freeKS s.draws s.cipher.st s.cipher.ks s.cipher.pos
        pos := Config.freePos s.draws s.cipher.st s.cipher.ks s.cipher.pos }
    inited := false
    fault := false
    cause := 0
    info := 0
    busy := false
    cmdIndex := 0
    draws := s.draws + 1 }

end Sys2Proof.Machine
end

