-- ==== Sys2Proof/Machine/Operands.lean ====
section
/-! DEFINITION. The operand forms. A command's operands are buffer addresses and lengths, used whole as unsigned 64-bit values
(30_encoding.md R73); there is no register operand (10_state.md R32). This file holds the admission of a byte range
(20_memory.md R55) and the overlap test (43_stream.md R151). -/

namespace Sys2Proof.Machine

/-- `valid(a, n)`: the range `[a, a + n)` lies in buffer memory, or is empty. Arithmetic on naturals, no wrap, no alignment
(R54, R55). -/
def State.valid (s : State) (a : DWord) (n : Nat) : Bool :=
  decide (n = 0 ∨ (a.toNat < s.memSize ∧ n ≤ s.memSize - a.toNat))

/-- `overlap(A, B, n)`: the ranges intersect and are not the same (R151). -/
def overlap (a b : DWord) (n : Nat) : Bool :=
  decide (0 < n ∧ a ≠ b ∧ a.toNat < b.toNat + n ∧ b.toNat < a.toNat + n)

/-- The bytes of the range `[a, a + n)` (00_scope.md R12). -/
def State.memRead (s : State) (a : DWord) (n : Nat) : Bytes := s.mem.readBytes a.toNat n

/-- Writing a byte string from address `a` on (00_scope.md R12). -/
def State.memWrite (a : DWord) (bs : Bytes) (s : State) : State := { s with mem := s.mem.writeBytes a.toNat bs }

end Sys2Proof.Machine
end

