-- ==== Sys2Proof/Machine/Permutation.lean ====
section
/-! DEFINITION. The block permutation (40_permutation.md): pure functions of a 16-word matrix that read no other state and cannot
fail (R100). -/

namespace Sys2Proof.Machine

/-- `rotl32(v, r)` for 0 < r < 32; used with 16, 12, 8 and 7 only (00_scope.md R10). -/
def rotl32 (v : Word) (r : Nat) : Word := v <<< r ||| v >>> (32 - r)

/-- The four words of a quarter-round after its four lines, each line using what the lines before it wrote; additions wrap
modulo 2^32 (R101, R10). -/
def quarterWords (a b c d : Word) : Word × Word × Word × Word :=
  let a := a + b
  let d := rotl32 (d ^^^ a) 16
  let c := c + d
  let b := rotl32 (b ^^^ c) 12
  let a := a + b
  let d := rotl32 (d ^^^ a) 8
  let c := c + d
  let b := rotl32 (b ^^^ c) 7
  (a, b, c, d)

/-- `QR(x, a, b, c, d)` (R101). The indices are distinct, so the four words are read once and written once. -/
def qr (q : Quad) (x : Matrix) : Matrix :=
  let y := quarterWords x[q.a] x[q.b] x[q.c] x[q.d]
  (((x.set q.a y.1).set q.b y.2.1).set q.c y.2.2.1).set q.d y.2.2.2

/-- The column quadruples (R102). -/
def col0 : Quad := { a := 0, b := 4, c := 8, d := 12 }
def col1 : Quad := { a := 1, b := 5, c := 9, d := 13 }
def col2 : Quad := { a := 2, b := 6, c := 10, d := 14 }
def col3 : Quad := { a := 3, b := 7, c := 11, d := 15 }

/-- The diagonal quadruples, roles in the order a, b, c, d (R103). -/
def diag0 : Quad := { a := 0, b := 5, c := 10, d := 15 }
def diag1 : Quad := { a := 1, b := 6, c := 11, d := 12 }
def diag2 : Quad := { a := 2, b := 7, c := 8, d := 13 }
def diag3 : Quad := { a := 3, b := 4, c := 9, d := 14 }

/-- `COLUMNROUND(x)` (R102). -/
def columnRound (x : Matrix) : Matrix := qr col3 (qr col2 (qr col1 (qr col0 x)))

/-- `DIAGONALROUND(x)` (R103). -/
def diagonalRound (x : Matrix) : Matrix := qr diag3 (qr diag2 (qr diag1 (qr diag0 x)))

/-- `DOUBLEROUND(x)`: a column round, then a diagonal round (R104). -/
def doubleRound (x : Matrix) : Matrix := diagonalRound (columnRound x)

/-- `n` double rounds. -/
def doubleRounds : Nat → Matrix → Matrix
  | 0, x => x
  | n + 1, x => doubleRounds n (doubleRound x)

/-- `PERMUTE(x)`: exactly 10 double rounds, with no feed-forward (R105). -/
def permute (x : Matrix) : Matrix := doubleRounds 10 x

end Sys2Proof.Machine
end

