-- ==== Sys2Proof/Machine/Subkey.lean ====
section
/-! DEFINITION. HChaCha20 subkey derivation (41_subkey.md): the pure function and the HCHACHA20 command. -/

namespace Sys2Proof.Machine

/-- The matrix HSUBKEY permutes: SIGMA, the key, the nonce (R121). -/
def subkeyMatrix (key n16 : Bytes) : Matrix :=
  #v[sigma[0], sigma[1], sigma[2], sigma[3],
     le32 key 0, le32 key 1, le32 key 2, le32 key 3, le32 key 4, le32 key 5, le32 key 6, le32 key 7,
     le32 n16 0, le32 n16 1, le32 n16 2, le32 n16 3]

/-- Words 0 to 3 and 12 to 15 of a matrix, each little-endian, in that order (R121). -/
def subkeyBytes (x : Matrix) : Bytes :=
  bytes32 x[0] ++ bytes32 x[1] ++ bytes32 x[2] ++ bytes32 x[3] ++
    bytes32 x[12] ++ bytes32 x[13] ++ bytes32 x[14] ++ bytes32 x[15]

/-- `HSUBKEY(key, n16)`: the permuted matrix is not added to its input (R121). -/
def hsubkey (key n16 : Bytes) : Bytes := subkeyBytes (permute (subkeyMatrix key n16))

/-- The subkey HCHACHA20 writes: that of the 48 input bytes as they are when the command is accepted (R120, corner case 1). -/
def State.derivedSubkey (s : State) (a b : DWord) : Bytes := hsubkey (s.memRead a 32) (s.memRead b 16)

/-- HCHACHA20 A, B, C (R120). It writes the 32 bytes from `c` on and nothing of the cipher state; it is allowed while
`INITED = 0`, and its output may overlap its inputs. -/
def execHchacha20 (a b c : DWord) (s : State) : Host.Outcome State Fault Refusal :=
  if !s.valid a 32 then raise .access 1 s
  else if !s.valid b 16 then raise .access 2 s
  else if !s.valid c 32 then raise .access 3 s
  else .next (s.memWrite c (s.derivedSubkey a b)).complete

end Sys2Proof.Machine
end

