-- ==== Sys2Proof/Machine/Keystream.lean ====
section
/-! DEFINITION. Keystream generation (42_keystream.md): BLOCK, and the INIT command. -/

namespace Sys2Proof.Machine

/-- The keystream block of a working matrix: the permuted copy, with each word of the original added back (R133). -/
def blockWords (st : Matrix) : Matrix :=
  let w := permute st
  tabulate (fun i => w[i] + st[i])

/-- `BLOCK()`: `KS` becomes the block of the current `ST`, and then the counter rises by one; `pos` is the caller's (R133). -/
def Cipher.block (c : Cipher) : Cipher := { c with ks := blockWords c.st }.incCtr 1

/-- `BLOCKFN(n)` for the stream of a working matrix: the block made when `CTR = n` and `ST` is otherwise `st` (R134). -/
def blockFn (st : Matrix) (n : DWord) : Matrix := blockWords (withCtr n st)

/-- The working matrix of INIT: SIGMA, the derived subkey, counter 0, the last 8 nonce bytes (R130). -/
def initMatrix (key nonce : Bytes) : Matrix :=
  let sk := hsubkey key (nonce.take 16)
  #v[sigma[0], sigma[1], sigma[2], sigma[3],
     le32 sk 0, le32 sk 1, le32 sk 2, le32 sk 3, le32 sk 4, le32 sk 5, le32 sk 6, le32 sk 7,
     0, 0, le32 (nonce.drop 16) 0, le32 (nonce.drop 16) 1]

/-- What INIT leaves in the cipher state: a fresh matrix and an exhausted cursor; `KS` is not written (R130, 10_state.md R25). -/
def Cipher.start (key nonce : Bytes) (c : Cipher) : Cipher :=
  { c with st := initMatrix key nonce, pos := 64 }

/-- INIT A, B (R130). -/
def execInit (a b : DWord) (s : State) : Host.Outcome State Fault Refusal :=
  if !s.valid a 32 then raise .access 1 s
  else if !s.valid b 24 then raise .access 2 s
  else
    .next { s with
      cipher := s.cipher.start (s.memRead a 32) (s.memRead b 24)
      inited := true }.complete

end Sys2Proof.Machine
end

