-- ==== Sys2Proof/Machine/Stream.lean ====
section
/-! DEFINITION. The stream cursor (43_stream.md): the CRYPT and DISCARD commands. -/

namespace Sys2Proof.Machine

/-- The lazy regeneration before a byte: at `pos == 64` a BLOCK, and `pos <- 0` (R150). -/
def Cipher.refill (c : Cipher) : Cipher := if c.pos = 64 then { c.block with pos := 0 } else c

/-- `pos <- pos + 1` (R150). -/
def Cipher.advance (c : Cipher) : Cipher := { c with pos := c.pos + 1 }

/-- The keystream byte the next CRYPT byte is XORed with: `KSBYTE(pos)` after the regeneration (R150). -/
def Cipher.nextByte (c : Cipher) : Byte := ksByte c.refill.ks c.refill.pos.toNat

/-- One byte of a CRYPT: read the input byte, write it XORed with the keystream byte, advance the cursor (R150). -/
def State.cryptByte (a b : Nat) (s : State) : State :=
  { s with
    cipher := s.cipher.refill.advance
    mem := s.mem.write b (s.mem.read a ^^^ s.cipher.nextByte) }

/-- The loop of CRYPT over `n` bytes in increasing index (R150, 20_memory.md R60). -/
def State.cryptLoop : Nat → Nat → Nat → State → State
  | 0, _, _, s => s
  | n + 1, a, b, s => State.cryptLoop n (a + 1) (b + 1) (s.cryptByte a b)

/-- CRYPT A, B, C (R150): the checks in order, all before the first write, then the bytes. -/
def execCrypt (a b c : DWord) (s : State) : Host.Outcome State Fault Refusal :=
  if !s.inited then raise .notInitialized 0 s
  else if !s.valid a c.toNat then raise .access 1 s
  else if !s.valid b c.toNat then raise .access 2 s
  else if overlap a b c.toNat then raise .overlap 2 s
  else .next (s.cryptLoop c.toNat a.toNat b.toNat).complete

/-- How many of `n` bytes the partly consumed block takes: none when it is exhausted (R153, first step). -/
def Cipher.leftover (n : Nat) (c : Cipher) : Nat := if c.pos.toNat < 64 then min n (64 - c.pos.toNat) else 0

/-- The first step of DISCARD: consume `k` bytes of the partly consumed block (R153). -/
def Cipher.consume (k : Nat) (c : Cipher) : Cipher := { c with pos := BitVec.ofNat 7 (c.pos.toNat + k) }

/-- The later steps of DISCARD, from a block boundary: skip the whole blocks of `n` bytes, then generate one block if bytes
remain (R153). -/
def Cipher.skipBlocks (n : Nat) (c : Cipher) : Cipher :=
  let c := c.incCtr (BitVec.ofNat 64 (n / 64))
  if n % 64 = 0 then c else { c.block with pos := BitVec.ofNat 7 (n % 64) }

/-- DISCARD of `n` bytes on the cipher state (R153). -/
def Cipher.discard (n : Nat) (c : Cipher) : Cipher :=
  let k := c.leftover n
  (c.consume k).skipBlocks (n - k)

/-- DISCARD C (R153). Buffer memory is neither read nor written. -/
def execDiscard (c : DWord) (s : State) : Host.Outcome State Fault Refusal :=
  if !s.inited then raise .notInitialized 0 s
  else .next { s with cipher := s.cipher.discard c.toNat }.complete

end Sys2Proof.Machine
end

