-- ==== Sys2Proof/Machine/Dispatch.lean ====
section
/-! DEFINITION. The one dispatch from a decoded command to its meaning (30_encoding.md R75 step 4). The state is that of an
accepted command. -/

namespace Sys2Proof.Machine

def exec (i : Instr) (s : State) : Host.Outcome State Fault Refusal :=
  match i with
  | .init a b => Sys2Proof.Machine.execInit a b s
  | .crypt a b c => Sys2Proof.Machine.execCrypt a b c s
  | .discard c => Sys2Proof.Machine.execDiscard c s
  | .hchacha20 a b c => Sys2Proof.Machine.execHchacha20 a b c s

end Sys2Proof.Machine
end

