-- ==== Sys2Proof/Machine/Flags.lean ====
section
/-! DEFINITION. The status registers (10_state.md R34, R35). The core has no flags register and no condition codes (R33): its
only status bits are those of STATUS. -/

namespace Sys2Proof.Machine

/-- STATUS: bit 0 `INITED`, bit 1 `FAULT`, bit 2 `BUSY`, bits 63:3 read 0 (R34). -/
def State.status (s : State) : DWord :=
  (BitVec.ofBool s.inited).setWidth 64 ||| (BitVec.ofBool s.fault).setWidth 64 <<< 1 |||
    (BitVec.ofBool s.busy).setWidth 64 <<< 2

/-- CTR: the block counter, or while `INITED = 0` an unspecified value drawn on each read (R34, R35; free value, log entry 4). -/
def State.readCtr (s : State) : DWord :=
  if s.inited then s.cipher.ctr else Config.freeCtrRead s.draws s.cipher.st s.cipher.ks s.cipher.pos

/-- POS: the cursor in bits 6:0, or while `INITED = 0` an unspecified value there; bits 63:7 read 0 always (R34, R35; free value,
log entry 4). -/
def State.readPos (s : State) : DWord :=
  (if s.inited then s.cipher.pos else Config.freePosRead s.draws s.cipher.st s.cipher.ks s.cipher.pos).setWidth 64

/-- READ_REG(i): the value of status register `i`; an index with no register reads 0 (R34, R35). -/
def State.readReg (s : State) (i : BitVec 8) : DWord :=
  match i.toNat with
  | 0 => s.status
  | 1 => s.cause.setWidth 64
  | 2 => s.info
  | 3 => s.readCtr
  | 4 => s.readPos
  | _ => 0

/-- `cmd_ready`: the command port accepts a descriptor only when `BUSY = 0` and `FAULT = 0` (30_encoding.md R70, R84). -/
def State.cmdReady (s : State) : Bool := !s.busy && !s.fault

end Sys2Proof.Machine
end

