-- ==== Sys2Proof/Machine/HostPort.lean ====
section
/-! DEFINITION. The four host interactions (30_encoding.md R83), each as one step of the machine. -/

namespace Sys2Proof.Machine

/-- Running an accepted descriptor: decode it, then the selected command or the fault decoding raises (R70, R75). -/
def runDescriptor (d : Descriptor) (s : State) : Host.Outcome State Fault Refusal :=
  match decode d with
  | .ok i => exec i s
  | .error r => raise (rejectCause r) (rejectInfo r) s

/-- SUBMIT(d) (R70): accepted only when `BUSY = 0` and `FAULT = 0`; while either is 1 the SUBMIT waits, and there is no step. -/
def hostSubmit (d : Descriptor) (s : State) : Host.Outcome State Fault Refusal :=
  if s.fault then .fault .haltedByFault
  else if s.busy then .fault .portBusy
  else runDescriptor d s.accept

/-- READ_REG(i) (10_state.md R35): the host learns the register's value and no state of the core changes. The model counts the
draw it may have made. -/
def hostReadReg (i : BitVec 8) (s : State) : Host.Outcome State Fault Refusal :=
  .next { s with replies := .reg i (s.readReg i) :: s.replies, draws := s.draws + 1 }

/-- The host reads a byte of buffer memory (20_memory.md R50, R58). -/
def hostReadMem (a : DWord) (s : State) : Host.Outcome State Fault Refusal :=
  if a.toNat < s.memSize then .next { s with replies := .byte a (s.mem.read a.toNat) :: s.replies }
  else .fault (.hostOutsideMemory a)

/-- The host writes a byte of buffer memory (20_memory.md R50, R58). -/
def hostWriteMem (a : DWord) (v : Byte) (s : State) : Host.Outcome State Fault Refusal :=
  if a.toNat < s.memSize then .next { s with mem := s.mem.write a.toNat v }
  else .fault (.hostOutsideMemory a)

/-- One interaction of the host with the machine (R83). -/
def interact (x : HostAction) (s : State) : Host.Outcome State Fault Refusal :=
  match x with
  | .submit d => hostSubmit d s
  | .readReg i => hostReadReg i s
  | .readMem a => hostReadMem a s
  | .writeMem a v => hostWriteMem a v s
  | .reset => .next s.hostReset

/-- With no interaction to come the core is idle and keeps all of its state (60_exceptions.md R188). -/
def idle (s : State) : Host.Outcome State Fault Refusal := .next s

/-- The host's next interaction is SUBMIT(d), and the port accepts it. What the host has still to do comes after it. -/
def State.withSubmit (d : Descriptor) (s : State) : State :=
  { s with script := .submit d :: s.script, fault := false, busy := false }

end Sys2Proof.Machine
end

