-- ==== Sys2Proof/Machine/Step.lean ====
section
/-! DEFINITION. One step: the host's next interaction (60_exceptions.md R189). A SUBMIT runs its whole command in one step
(10_state.md R20; log entry 10). -/

namespace Sys2Proof.Machine

/-- One step of the machine. -/
def step (s : State) : Host.Outcome State Fault Refusal :=
  match s.script with
  | [] => idle s
  | x :: rest => interact x { s with script := rest }

/-- The state whose very next step submits the descriptor with low bits `w` (the others 0), with the port ready. The core
fetches nothing (20_memory.md R65): a command comes from the host (log entry 5). -/
def State.withFetchWord (s : State) (nbits w : Nat) : State := s.withSubmit (Descriptor.ofTableWord nbits w)

end Sys2Proof.Machine
end

