-- ==== Sys2Proof/Laws/Decode.lean ====
section
/-! SUPPORT. What the decoder answers, and the two forms of a descriptor as bits. -/

namespace Sys2Proof

theorem Opcode.ofByte_toByte (op : Opcode) : Opcode.ofByte op.toByte = some op := by
  cases op <;> rfl

theorem Opcode.toByte_of_ofByte {b : Byte} {op : Opcode} (h : Opcode.ofByte b = some op) : op.toByte = b := by
  unfold Opcode.ofByte at h
  apply BitVec.eq_of_toNat_eq
  split at h <;> simp_all [Opcode.toByte] <;> (subst h; simp_all)

/-- An unassigned opcode is 0 or at least 5. -/
theorem Opcode.ofByte_eq_none {b : Byte} : Opcode.ofByte b = none ↔ b.toNat = 0 ∨ 5 ≤ b.toNat := by
  unfold Opcode.ofByte
  split <;> simp_all
  omega

theorem decode_illegalOpcode {d : Descriptor} (h : Opcode.ofByte d.opc = none) :
    decode d = .error (.illegalOpcode d.d0) := by
  simp only [decode, h]

theorem decode_reservedBits {d : Descriptor} {op : Opcode} (h : Opcode.ofByte d.opc = some op) (hr : d.rsv ≠ 0) :
    decode d = .error (.reservedNonzero 0) := by
  simp only [decode, h, if_neg hr]

theorem decode_unusedOperand {d : Descriptor} {op : Opcode} {w : Fin 4} (h : Opcode.ofByte d.opc = some op) (hr : d.rsv = 0)
    (hw : op.mustBeZero.find? (fun w => d.word w != 0) = some w) : decode d = .error (.reservedNonzero w) := by
  simp only [decode, h, if_pos hr, hw]

theorem decode_select {d : Descriptor} {op : Opcode} (h : Opcode.ofByte d.opc = some op) (hr : d.rsv = 0)
    (hw : op.mustBeZero.find? (fun w => d.word w != 0) = none) : decode d = .ok (d.select op) := by
  simp only [decode, h, if_pos hr, hw]

/-- Everything decoding can answer, in the order of the checks. -/
theorem decode_cases (d : Descriptor) :
    (Opcode.ofByte d.opc = none ∧ decode d = .error (.illegalOpcode d.d0)) ∨
    (∃ op, Opcode.ofByte d.opc = some op ∧ d.rsv ≠ 0 ∧ decode d = .error (.reservedNonzero 0)) ∨
    (∃ op w, Opcode.ofByte d.opc = some op ∧ d.rsv = 0 ∧ op.mustBeZero.find? (fun w => d.word w != 0) = some w ∧
      decode d = .error (.reservedNonzero w)) ∨
    (∃ op, Opcode.ofByte d.opc = some op ∧ d.rsv = 0 ∧ op.mustBeZero.find? (fun w => d.word w != 0) = none ∧
      decode d = .ok (d.select op)) := by
  cases h : Opcode.ofByte d.opc with
  | none => exact .inl ⟨rfl, decode_illegalOpcode h⟩
  | some op =>
    by_cases hr : d.rsv = 0
    · cases hw : op.mustBeZero.find? (fun w => d.word w != 0) with
      | none => exact .inr (.inr (.inr ⟨op, rfl, hr, hw, decode_select h hr hw⟩))
      | some w => exact .inr (.inr (.inl ⟨op, w, rfl, hr, hw, decode_unusedOperand h hr hw⟩))
    · exact .inr (.inl ⟨op, rfl, hr, decode_reservedBits h hr⟩)

/-- `D0` is its two fields. -/
theorem Descriptor.d0_eq (d : Descriptor) : d.d0 = (d.rsv ++ d.opc : BitVec 64) := by
  apply BitVec.eq_of_getLsbD_eq
  intro i hi
  rw [BitVec.getLsbD_append]
  unfold Descriptor.rsv Descriptor.opc
  split
  · next h => simp [h]
  · next h =>
    rw [BitVec.getLsbD_extractLsb', show 8 + (i - 8) = i by omega]
    simp [show i - 8 < 56 by omega]

theorem encode_opc (i : Instr) : (encode i).opc = i.opcode.toByte := by
  cases i <;> rfl

theorem encode_rsv (i : Instr) : (encode i).rsv = 0 := by
  cases i <;> simp [encode, Descriptor.rsv, Instr.d0, Instr.opcode, Opcode.toByte]

theorem encode_unused (i : Instr) : i.opcode.mustBeZero.find? (fun w => (encode i).word w != 0) = none := by
  cases i <;> rfl

theorem encode_select (i : Instr) : (encode i).select i.opcode = i := by
  cases i <;> rfl

theorem encode_wellFormed (i : Instr) : (encode i).wellFormed = true := by
  cases i <;>
    simp [encode, Descriptor.wellFormed, Descriptor.opcodeAssigned, Descriptor.reservedZero, Descriptor.unusedZero, Instr.d0,
      Instr.opcode, Opcode.toByte]

end Sys2Proof
end

