-- ==== Sys2Proof/Laws/PerInstr.lean ====
section
/-! SUPPORT. Statements about every command as syntax, one lemma per constructor. -/

namespace Sys2Proof.Laws.EncodeDecode

/-- Decoding the descriptor of a command gives the command back, and the descriptor is well formed. -/
def Statement (i : Instr) : Prop := decode (encode i) = .ok i ∧ (encode i).wellFormed = true

theorem init (a b : DWord) : Statement (.init a b) :=
  ⟨decode_select (op := .init) (encode_opc _ ▸ Opcode.ofByte_toByte _) (encode_rsv _) (encode_unused _), encode_wellFormed _⟩

theorem crypt (a b c : DWord) : Statement (.crypt a b c) :=
  ⟨decode_select (op := .crypt) (encode_opc _ ▸ Opcode.ofByte_toByte _) (encode_rsv _) (encode_unused _), encode_wellFormed _⟩

theorem discard (c : DWord) : Statement (.discard c) :=
  ⟨decode_select (op := .discard) (encode_opc _ ▸ Opcode.ofByte_toByte _) (encode_rsv _) (encode_unused _), encode_wellFormed _⟩

theorem hchacha20 (a b c : DWord) : Statement (.hchacha20 a b c) :=
  ⟨decode_select (op := .hchacha20) (encode_opc _ ▸ Opcode.ofByte_toByte _) (encode_rsv _) (encode_unused _), encode_wellFormed _⟩

end Sys2Proof.Laws.EncodeDecode
end

