-- ==== Sys2Proof/Machine/Assembler.lean ====
section
/-! DEFINITION. The listing syntax (30_encoding.md R79) and the pseudo-instructions (R80): from the characters of one line to
the command it stands for. The core never sees text; this is the spec's own spelling of commands. What R79 leaves open of the text is
log entry 13. -/

namespace Sys2Proof

/-- Space or tab: what separates a mnemonic from its operands. -/
def isBlank (c : Char) : Bool := c == ' ' || c == '\t'

/-- The text without blanks at its two ends. -/
def trim (t : List Char) : List Char := ((t.dropWhile isBlank).reverse.dropWhile isBlank).reverse

/-- The text before the first `;`, which starts a comment (R79). -/
def stripComment (t : List Char) : List Char := t.takeWhile (· != ';')

/-- The fields between commas (R79). -/
def splitCommas : List Char → List (List Char)
  | [] => [[]]
  | c :: t =>
    match splitCommas t with
    | [] => [[c]]
    | f :: fs => if c = ',' then [] :: f :: fs else (c :: f) :: fs

/-- The value of a digit in base `base` (10 or 16); hexadecimal letters in either case. -/
def digitValue (base : Nat) (c : Char) : Option Nat :=
  let v :=
    if '0' ≤ c ∧ c ≤ '9' then c.toNat - 48
    else if 'a' ≤ c ∧ c ≤ 'f' then c.toNat - 87
    else if 'A' ≤ c ∧ c ≤ 'F' then c.toNat - 55
    else 16
  if v < base then some v else none

/-- The number a non-empty run of digits spells. -/
def digitsValue (base : Nat) (t : List Char) : Option Nat :=
  if t.isEmpty then none
  else t.foldlM (fun n c => (digitValue base c).map (fun v => n * base + v)) 0

/-- An operand: an unsigned integer in decimal or `0x` hexadecimal (R79). -/
def parseOperand (t : List Char) : Except AsmError Nat :=
  let v :=
    match t with
    | '0' :: 'x' :: h => digitsValue 16 h
    | _ => digitsValue 10 t
  match v with
  | some n => .ok n
  | none => .error .badOperand

/-- The name of a mnemonic, in capitals (R79, R80). -/
def Mnemonic.name : Mnemonic → List Char
  | .init => ['I', 'N', 'I', 'T']
  | .crypt => ['C', 'R', 'Y', 'P', 'T']
  | .discard => ['D', 'I', 'S', 'C', 'A', 'R', 'D']
  | .hchacha20 => ['H', 'C', 'H', 'A', 'C', 'H', 'A', '2', '0']
  | .encrypt => ['E', 'N', 'C', 'R', 'Y', 'P', 'T']
  | .decrypt => ['D', 'E', 'C', 'R', 'Y', 'P', 'T']
  | .cryptip => ['C', 'R', 'Y', 'P', 'T', 'I', 'P']
  | .skip => ['S', 'K', 'I', 'P']

/-- Every mnemonic of R79 and R80. -/
def Mnemonic.all : List Mnemonic := [.init, .crypt, .discard, .hchacha20, .encrypt, .decrypt, .cryptip, .skip]

/-- A mnemonic, in any case of letters (R79). -/
def parseMnemonic (t : List Char) : Except AsmError Mnemonic :=
  match Mnemonic.all.find? (fun m => m.name == t.map Char.toUpper) with
  | some m => .ok m
  | none => .error .unknownMnemonic

/-- One line of a listing, or `none` where it holds nothing but blanks and a comment (R79). -/
def parseLine (t : List Char) : Except AsmError (Option Line) :=
  let t := trim (stripComment t)
  if t.isEmpty then .ok none
  else
    let rest := trim (t.dropWhile (fun c => !isBlank c))
    match parseMnemonic (t.takeWhile (fun c => !isBlank c)),
        (if rest.isEmpty then .ok [] else (splitCommas rest).mapM (fun f => parseOperand (trim f))) with
    | .error e, _ => .error e
    | _, .error e => .error e
    | .ok m, .ok ns => .ok (some { mnemonic := m, operands := ns })

/-- The command a well-formed line stands for: a mnemonic of R79 itself, a pseudo-instruction its one command (R80). -/
def Line.select (l : Line) : Option Instr :=
  match l.mnemonic, l.operands.map (BitVec.ofNat 64) with
  | .init, [a, b] => some (.init a b)
  | .crypt, [a, b, c] => some (.crypt a b c)
  | .discard, [c] => some (.discard c)
  | .hchacha20, [a, b, c] => some (.hchacha20 a b c)
  | .encrypt, [a, b, c] => some (.crypt a b c)
  | .decrypt, [a, b, c] => some (.crypt a b c)
  | .cryptip, [a, c] => some (.crypt a a c)
  | .skip, [c] => some (.discard c)
  | _, _ => none

/-- The command of a line; an operand that does not fit in 64 bits is refused (R79). -/
def Line.assemble (l : Line) : Except AsmError Instr :=
  if !l.operandsFit then .error .operandTooLarge
  else
    match l.select with
    | some i => .ok i
    | none => .error .operandCount

/-- The descriptor of one line of text, if it holds a command (R79, R80). -/
def assembleText (t : List Char) : Except AsmError (Option Descriptor) :=
  match parseLine t with
  | .error e => .error e
  | .ok none => .ok none
  | .ok (some l) =>
    match l.assemble with
    | .error e => .error e
    | .ok i => .ok (some (encode i))

end Sys2Proof
end

