-- ==== Sys2Proof/Machine/Platform.lean ====
section
/-! DEFINITION. A platform of `NUM_INSTANCES` cores (00_scope.md R8, 10_state.md R41, 60_exceptions.md R186): each core is an
independent machine with its own command port, and all of them reach one buffer memory. One core steps at a time; which one is
the caller's choice (20_memory.md R61; log entry 11). -/

namespace Sys2Proof.Machine

/-- The cores of a platform, `NUM_INSTANCES` of them. Every core's `mem` field is the one shared buffer memory. -/
structure Platform where
  cores : List State
  deriving DecidableEq, Repr

/-- `NUM_INSTANCES`: how many cores the platform holds (R8). No step changes it. -/
abbrev Platform.numInstances (p : Platform) : Nat := p.cores.length

/-- The cores reach one memory of one size (R41). -/
def Platform.shared (p : Platform) : Prop :=
  ∀ x ∈ p.cores, ∀ y ∈ p.cores, x.mem = y.mem ∧ x.memSize = y.memSize

/-- What a platform is: at least one core (R8), of which all reach one memory of one legal size (R8, R41). -/
structure Platform.Legal (p : Platform) : Prop where
  numInstances : Config.legalNumInstances p.numInstances
  memSize : ∀ x ∈ p.cores, Config.legalMemSize x.memSize
  shared : p.shared

/-- A platform of `n` cores after reset: each core starts from reset by itself (R186). -/
def Platform.reset (n : Nat) : Platform := { cores := List.replicate n State.reset }

/-- A core that sees memory `m`. -/
def State.withMem (m : Memory) (s : State) : State := { s with mem := m }

/-- The platform after core `k` has gone to `t`: the other cores see its memory, and nothing else of theirs changes. -/
def Platform.update (p : Platform) (k : Nat) (t : State) : Platform :=
  { cores := (p.cores.map (State.withMem t.mem)).set k t }

/-- One step of core `k`; `none` where the platform has no such core. -/
def Platform.stepCore (p : Platform) (k : Nat) : Option (Host.Outcome Platform Fault Refusal) :=
  match p.cores[k]? with
  | none => none
  | some s =>
    match step s with
    | .next t => some (.next (p.update k t))
    | .fault f => some (.fault f)
    | .refused r => some (.refused r)

end Sys2Proof.Machine
end

