-- ==== Sys2Proof/Safety.lean ====
section
/-! DEFINITION. What a state between commands looks like on this hardware, and what counts as a safe run, and the
words the claims about the keystream use. -/

namespace Sys2Proof.Machine

/-- Buffer memory is in its canonical form, its size is a legal one, and every listed byte lies inside it (20_memory.md R50,
00_scope.md R8). -/
def State.memOk (s : State) : Prop :=
  s.mem.wf ∧ Config.legalMemSize s.memSize ∧ ∀ x ∈ s.mem, x.1 < s.memSize

/-- While `INITED = 1`, at every boundary between commands, `pos` is in `[1, 64]` (10_state.md R28). -/
def State.posOk (s : State) : Prop := s.inited = true → 1 ≤ s.cipher.pos.toNat ∧ s.cipher.pos.toNat ≤ 64

/-- While `INITED = 1`, words 0 to 3 of `ST` hold SIGMA (10_state.md R22, R24). -/
def State.sigmaOk (s : State) : Prop := s.inited = true → ∀ i : Fin 4, s.cipher.st[i.val] = sigma[i]

/-- While `INITED = 1` and the block is partly consumed, `KS` is the block of the counter value before the last BLOCK
(43_stream.md R155 (3)). -/
def State.ksOk (s : State) : Prop :=
  s.inited = true → s.cipher.pos.toNat < 64 → s.cipher.ks = blockFn s.cipher.st (s.cipher.ctr - 1)

/-- The fault record is one the spec can leave: nothing while `FAULT = 0`, and otherwise a cause with an information word of its
kind (60_exceptions.md R171, R175 to R179). -/
def State.faultOk (s : State) : Prop :=
  if s.fault then
    (s.cause = Cause.code .illegalOpcode ∧ (s.info.toNat % 256 = 0 ∨ 5 ≤ s.info.toNat % 256)) ∨
    (s.cause = Cause.code .reservedNonzero ∧ s.info.toNat ≤ 3) ∨
    (s.cause = Cause.code .notInitialized ∧ s.info = 0 ∧ s.inited = false) ∨
    (s.cause = Cause.code .access ∧ 1 ≤ s.info.toNat ∧ s.info.toNat ≤ 3) ∨
    (s.cause = Cause.code .overlap ∧ s.info = 2 ∧ s.inited = true)
  else s.cause = 0 ∧ s.info = 0

/-- What holds of the machine at every boundary between host interactions. -/
structure State.Inv (s : State) : Prop where
  /-- Every host step observes `BUSY = 0` (10_state.md R31). -/
  idle : s.busy = false
  mem : s.memOk
  pos : s.posOk
  sigma : s.sigmaOk
  ks : s.ksOk
  fault : s.faultOk

/-- A completed run: the host has no interaction left and the core is idle (60_exceptions.md R189). -/
def State.runComplete (s : State) : Prop := s.script = [] ∧ s.busy = false

/-- A good final state: a completed run with `FAULT = 0` (R189). -/
def State.goodFinal (s : State) : Prop := s.runComplete ∧ s.fault = false

/-! ## The stream, as the rules of 43_stream.md speak of it -/

/-- The cipher state after `n` keystream bytes have been used, one after another (43_stream.md R150). -/
def Cipher.use : Nat → Cipher → Cipher
  | 0, c => c
  | n + 1, c => Cipher.use n c.refill.advance

/-- The next `n` keystream bytes (R150). -/
def Cipher.keystream : Nat → Cipher → Bytes
  | 0, _ => []
  | n + 1, c => c.nextByte :: Cipher.keystream n c.refill.advance

/-- Byte by byte exclusive OR. -/
def xorBytes (x y : Bytes) : Bytes := List.zipWith (· ^^^ ·) x y

/-- `ks(P)`: byte `P mod 64` of `BLOCKFN(P div 64)` for the stream INIT makes of a key and a nonce (43_stream.md R156). The block
number is taken modulo 2^64, as the counter is (42_keystream.md R136). -/
def streamByte (key nonce : Bytes) (p : Nat) : Byte :=
  ksByte (blockFn (initMatrix key nonce) (BitVec.ofNat 64 (p / 64))) (p % 64)

/-- The stream position after a command that completed: 0 after an INIT, and otherwise the position before it and the length of
a CRYPT or a DISCARD (42_keystream.md R131, 43_stream.md R155). -/
def positionAfterCommand (p : Nat) : Instr → Nat
  | .init _ _ => 0
  | .crypt _ _ c => p + c.toNat
  | .discard c => p + c.toNat
  | .hchacha20 _ _ _ => p

/-- The stream position after an interaction that led to `t`: only a command that completed moves it (R155). -/
def HostAction.positionAfter (t : State) (p : Nat) : HostAction → Nat
  | .submit d =>
    match decode d with
    | .ok i => if t.fault then p else positionAfterCommand p i
    | .error _ => p
  | .readReg _ => p
  | .readMem _ => p
  | .writeMem _ _ => p
  | .reset => p

/-- A run of host interactions from a state and a stream position, with the position it ends at; `none` where one has no next
state. -/
def runHost : List HostAction → State → Nat → Option (State × Nat)
  | [], s, p => some (s, p)
  | x :: l, s, p =>
    match interact x s with
    | .next t => runHost l t (x.positionAfter t p)
    | .fault _ => none
    | .refused _ => none

/-- An interaction that is neither RESET nor a submission of an INIT: it leaves the stream the one the last INIT began. -/
def HostAction.keepsStream : HostAction → Prop
  | .submit d => ∀ a b, decode d ≠ .ok (.init a b)
  | .readReg _ => True
  | .readMem _ => True
  | .writeMem _ _ => True
  | .reset => False

/-- The core is at position `p` of the stream whose matrix INIT made as `m` (43_stream.md R155): `INITED = 1`; `ST` is `m` but for the
counter (10_state.md R24); and cursor, counter and block are those of position `p`. -/
structure State.StreamAt (m : Matrix) (p : Nat) (s : State) : Prop where
  inited : s.inited = true
  matrix : ∀ i : Fin 16, i ≠ 12 → i ≠ 13 → s.cipher.st[i] = m[i]
  /-- R155 (1). -/
  cursor : 1 ≤ s.cipher.pos.toNat ∧ s.cipher.pos.toNat ≤ 64
  /-- R155 (2): the block is exhausted. -/
  exhausted : s.cipher.pos.toNat = 64 → p = 64 * s.cipher.ctr.toNat
  /-- R155 (3): the block is partly consumed. -/
  partly : s.cipher.pos.toNat < 64 →
    1 ≤ s.cipher.ctr.toNat ∧ p = 64 * (s.cipher.ctr.toNat - 1) + s.cipher.pos.toNat ∧
      s.cipher.ks = blockFn m (BitVec.ofNat 64 (s.cipher.ctr.toNat - 1))

/-- The command is submitted and completes (60_exceptions.md R170). -/
def completes (i : Instr) (s t : State) : Prop := hostSubmit (encode i) s = .next t ∧ t.fault = false

end Sys2Proof.Machine
end

