-- ==== Sys2Proof/Certificates/Slice0/Obligations.lean ====
section
/-! DEFINITION. The statements for the provers. Each docstring names the rule of the spec it formalises. A statement about commands
is about `exec`, whose state is that of the accepted command, or about `step` at a SUBMIT. -/

namespace Sys2Proof.Machine

/-! ## Words the statements use, written from the rules and not from the model's own operations -/

/-- The range `[a, a + n)` lies inside buffer memory, on naturals, or is empty (20_memory.md R55). -/
abbrev State.fits (s : State) (a : DWord) (n : Nat) : Prop := n = 0 ∨ a.toNat + n ≤ s.memSize

/-- The input and output ranges of a CRYPT are the same, disjoint or empty: the cases R151 allows. -/
abbrev sameOrDisjoint (a b : DWord) (n : Nat) : Prop :=
  n = 0 ∨ a = b ∨ a.toNat + n ≤ b.toNat ∨ b.toNat + n ≤ a.toNat

/-- The two ranges intersect and are not the same (43_stream.md R151). -/
abbrev partlyOverlap (a b : DWord) (n : Nat) : Prop :=
  0 < n ∧ a ≠ b ∧ a.toNat < b.toNat + n ∧ b.toNat < a.toNat + n

/-- Address `x` is outside the range `[a, a + n)`. -/
abbrev outside (x : Nat) (a : DWord) (n : Nat) : Prop := x < a.toNat ∨ a.toNat + n ≤ x

/-- The value of `OPC` (30_encoding.md R71). -/
abbrev opcodeValue (d : Descriptor) : Nat := d.d0.toNat % 256

/-- What the host sees of the core's own state does not change: every item of 10_state.md R21 and the command index. -/
structure State.sameCore (s t : State) : Prop where
  cipher : t.cipher = s.cipher
  inited : t.inited = s.inited
  fault : t.fault = s.fault
  cause : t.cause = s.cause
  info : t.info = s.info
  busy : t.busy = s.busy
  cmdIndex : t.cmdIndex = s.cmdIndex

/-- What no command changes: the size of memory, the host's side of the interface, the command index (advanced on acceptance). -/
structure State.sameOutside (s t : State) : Prop where
  memSize : t.memSize = s.memSize
  script : t.script = s.script
  replies : t.replies = s.replies
  draws : t.draws = s.draws
  cmdIndex : t.cmdIndex = s.cmdIndex

/-- The fault record after a command: unchanged where no fault is recorded after it, and `FAULT` is never cleared
(60_exceptions.md R170, R172; 10_state.md R30). -/
structure State.sameRecord (s t : State) : Prop where
  busy : t.busy = false
  kept : s.fault = true → t.fault = true
  none : t.fault = false → t.cause = s.cause ∧ t.info = s.info

/-- Every check a descriptor must pass, in the order of 60_exceptions.md R180, each with the cause and the information word it
raises (R171): the left part says that the check FAILS. -/
def faultChecks (d : Descriptor) (s : State) : List (Bool × Cause × DWord) :=
  [ (decide (opcodeValue d = 0 ∨ 5 ≤ opcodeValue d), .illegalOpcode, d.d0),
    (decide (d.d0.toNat / 256 ≠ 0), .reservedNonzero, 0),
    (decide (opcodeValue d = 3 ∧ d.d1 ≠ 0), .reservedNonzero, 1),
    (decide (opcodeValue d = 3 ∧ d.d2 ≠ 0), .reservedNonzero, 2),
    (decide (opcodeValue d = 1 ∧ d.d3 ≠ 0), .reservedNonzero, 3),
    (decide ((opcodeValue d = 2 ∨ opcodeValue d = 3) ∧ s.inited = false), .notInitialized, 0),
    (decide (opcodeValue d = 1 ∧ ¬ s.fits d.d1 32), .access, 1),
    (decide (opcodeValue d = 1 ∧ ¬ s.fits d.d2 24), .access, 2),
    (decide (opcodeValue d = 2 ∧ ¬ s.fits d.d1 d.d3.toNat), .access, 1),
    (decide (opcodeValue d = 2 ∧ ¬ s.fits d.d2 d.d3.toNat), .access, 2),
    (decide (opcodeValue d = 4 ∧ ¬ s.fits d.d1 32), .access, 1),
    (decide (opcodeValue d = 4 ∧ ¬ s.fits d.d2 16), .access, 2),
    (decide (opcodeValue d = 4 ∧ ¬ s.fits d.d3 32), .access, 3),
    (decide (opcodeValue d = 2 ∧ partlyOverlap d.d1 d.d2 d.d3.toNat), .overlap, 2) ]

/-- The first check that fails. -/
def firstFailure (d : Descriptor) (s : State) : Option (Cause × DWord) :=
  ((faultChecks d s).find? (fun c => c.1)).map (fun c => c.2)

/-- The ranges a command reads (20_memory.md R57). -/
def readRanges : Instr → List (DWord × Nat)
  | .init a b => [(a, 32), (b, 24)]
  | .crypt a _ c => [(a, c.toNat)]
  | .discard _ => []
  | .hchacha20 a b _ => [(a, 32), (b, 16)]

/-- The ranges a command writes (R57). -/
def writeRanges : Instr → List (DWord × Nat)
  | .init _ _ => []
  | .crypt _ b c => [(b, c.toNat)]
  | .discard _ => []
  | .hchacha20 _ _ c => [(c, 32)]

/-- The quarter-round as R101 writes it: twelve assignments to words of the matrix in place, each using what was written before. -/
def quarterRoundInPlace (q : Quad) (x : Matrix) : Matrix :=
  let x := x.set q.a (x[q.a] + x[q.b])
  let x := x.set q.d (x[q.d] ^^^ x[q.a])
  let x := x.set q.d (rotl32 x[q.d] 16)
  let x := x.set q.c (x[q.c] + x[q.d])
  let x := x.set q.b (x[q.b] ^^^ x[q.c])
  let x := x.set q.b (rotl32 x[q.b] 12)
  let x := x.set q.a (x[q.a] + x[q.b])
  let x := x.set q.d (x[q.d] ^^^ x[q.a])
  let x := x.set q.d (rotl32 x[q.d] 8)
  let x := x.set q.c (x[q.c] + x[q.d])
  let x := x.set q.b (x[q.b] ^^^ x[q.c])
  x.set q.b (rotl32 x[q.b] 7)

/-- How many BLOCKs it takes to move the stream by `n` bytes from cursor `p` (70_reset_and_hazards.md R199, 43_stream.md R153):
none while the block in use has the bytes, and otherwise one for each 64 bytes begun beyond it. -/
def blocksBeyond (p n : Nat) : Nat := if n ≤ 64 - p then 0 else (n - (64 - p) + 63) / 64

end Sys2Proof.Machine

open Sys2Proof Sys2Proof.Machine

/-! ## Encoding (30_encoding.md) -/

/-- R82: the four encoding examples of the spec: each listing line assembles to the words the rule writes out, and these decode to
the command they stand for; and the 32 bytes of the INIT example. -/
def Obligations.ExampleDescriptorsDecode : Prop :=
  assembleText "INIT 0x0, 0x20".toList = .ok (some
    { d0 := 0x0000000000000001, d1 := 0x0000000000000000, d2 := 0x0000000000000020, d3 := 0x0000000000000000 }) ∧
  assembleText "CRYPT 0x100, 0x200, 200".toList = .ok (some
    { d0 := 0x0000000000000002, d1 := 0x0000000000000100, d2 := 0x0000000000000200, d3 := 0x00000000000000c8 }) ∧
  assembleText "DISCARD 129".toList = .ok (some
    { d0 := 0x0000000000000003, d1 := 0x0000000000000000, d2 := 0x0000000000000000, d3 := 0x0000000000000081 }) ∧
  assembleText "HCHACHA20 0x0, 0x20, 0x40".toList = .ok (some
    { d0 := 0x0000000000000004, d1 := 0x0000000000000000, d2 := 0x0000000000000020, d3 := 0x0000000000000040 }) ∧
  decode { d0 := 0x0000000000000001, d1 := 0x0000000000000000, d2 := 0x0000000000000020, d3 := 0x0000000000000000 } =
    .ok (.init 0x0 0x20) ∧
  decode { d0 := 0x0000000000000002, d1 := 0x0000000000000100, d2 := 0x0000000000000200, d3 := 0x00000000000000c8 } =
    .ok (.crypt 0x100 0x200 200) ∧
  decode { d0 := 0x0000000000000003, d1 := 0x0000000000000000, d2 := 0x0000000000000000, d3 := 0x0000000000000081 } =
    .ok (.discard 129) ∧
  decode { d0 := 0x0000000000000004, d1 := 0x0000000000000000, d2 := 0x0000000000000020, d3 := 0x0000000000000040 } =
    .ok (.hchacha20 0x0 0x20 0x40) ∧
  (encode (.init 0x0 0x20)).toBytes =
    [0x01, 0, 0, 0, 0, 0, 0, 0, 0, 0, 0, 0, 0, 0, 0, 0, 0x20, 0, 0, 0, 0, 0, 0, 0, 0, 0, 0, 0, 0, 0, 0, 0]

/-- R74, R76: decode and encode agree in both directions: a descriptor decodes to a command exactly when it is that command's
encoding. Every operand bit of every command is kept, and every descriptor that is no encoding is rejected. -/
def Obligations.DecodeInvertsEncode : Prop :=
  ∀ (d : Descriptor) (i : Instr), decode d = .ok i ↔ encode i = d

/-- R74 to R76: the decoder accepts exactly the well-formed descriptors, and rejects each other one with the reason of the first
step of R75 that applies. -/
def Obligations.DecodeRejectsByFirstStep : Prop :=
  ∀ d : Descriptor,
    ((∃ i, decode d = .ok i) ↔ d.wellFormed = true) ∧
    (d.opcodeAssigned = false → decode d = .error (.illegalOpcode d.d0)) ∧
    (d.opcodeAssigned = true → d.reservedZero = false → decode d = .error (.reservedNonzero 0)) ∧
    (d.opcodeAssigned = true → d.reservedZero = true → d.unusedZero = false →
      ∃ w : Fin 4, decode d = .error (.reservedNonzero w) ∧ w ≠ 0 ∧ d.word w ≠ 0 ∧
        ((opcodeValue d = 1 ∧ w = 3) ∨ (opcodeValue d = 3 ∧ (w = 1 ∨ (w = 2 ∧ d.d1 = 0)))))

/-- R71: the layout of a descriptor as one 256-bit value: bit `k` is bit `k mod 64` of word `D(k div 64)`, and OPC, RSV, A, B
and C are bits 7:0, 63:8, 127:64, 191:128 and 255:192. -/
def Obligations.DescriptorBitLayout : Prop :=
  ∀ d : Descriptor,
    (∀ k, (h : k < 256) → d.toBits.getLsbD k = (d.word ⟨k / 64, by omega⟩).getLsbD (k % 64)) ∧
    d.toBits.extractLsb' 0 8 = d.opc ∧ d.toBits.extractLsb' 8 56 = d.rsv ∧ d.toBits.extractLsb' 64 64 = d.a ∧
    d.toBits.extractLsb' 128 64 = d.b ∧ d.toBits.extractLsb' 192 64 = d.c ∧
    d.opc.toNat = d.d0.toNat % 256 ∧ d.rsv.toNat = d.d0.toNat / 256 ∧ d.a = d.d1 ∧ d.b = d.d2 ∧ d.c = d.d3 ∧
    Descriptor.ofBits d.toBits = d

/-- R72: a descriptor is spelled as 32 bytes, `D0` first, each word least-significant byte first, and is read back whole. -/
def Obligations.DescriptorByteForm : Prop :=
  ∀ d : Descriptor,
    d.toBytes.length = 32 ∧
    (∀ (w : Fin 4) (j : Nat), j < 8 → (d.toBytes.getD (8 * w.val + j) 0).toNat = (d.word w).toNat / 2 ^ (8 * j) % 256) ∧
    Descriptor.ofBytes d.toBytes = some d

/-- R79, R80: the descriptor of each listing line, and the one command each pseudo-instruction expands to; an operand that does not
fit in 64 bits is refused. -/
def Obligations.ListingLinesAssemble : Prop :=
  (∀ a b c : DWord,
    (Line.mk .init [a.toNat, b.toNat]).assemble = .ok (.init a b) ∧
    encode (.init a b) = { d0 := 0x01, d1 := a, d2 := b, d3 := 0 } ∧
    (Line.mk .crypt [a.toNat, b.toNat, c.toNat]).assemble = .ok (.crypt a b c) ∧
    encode (.crypt a b c) = { d0 := 0x02, d1 := a, d2 := b, d3 := c } ∧
    (Line.mk .discard [c.toNat]).assemble = .ok (.discard c) ∧
    encode (.discard c) = { d0 := 0x03, d1 := 0, d2 := 0, d3 := c } ∧
    (Line.mk .hchacha20 [a.toNat, b.toNat, c.toNat]).assemble = .ok (.hchacha20 a b c) ∧
    encode (.hchacha20 a b c) = { d0 := 0x04, d1 := a, d2 := b, d3 := c } ∧
    (Line.mk .encrypt [a.toNat, b.toNat, c.toNat]).assemble = .ok (.crypt a b c) ∧
    (Line.mk .decrypt [a.toNat, b.toNat, c.toNat]).assemble = .ok (.crypt a b c) ∧
    (Line.mk .cryptip [a.toNat, c.toNat]).assemble = .ok (.crypt a a c) ∧
    (Line.mk .skip [c.toNat]).assemble = .ok (.discard c)) ∧
  (∀ l : Line, (∃ n ∈ l.operands, 2 ^ 64 ≤ n) → l.assemble = .error .operandTooLarge)

/-! ## Steps, submissions and the host (30_encoding.md R70, R83; 10_state.md R33, R35) -/

/-- R70, R75: a step whose next interaction is a SUBMIT that the port accepts, of a descriptor that decodes, is `exec` of the
decoded command at the accepted state: the interaction is taken off the host's script, `BUSY` is set and the command index
advances by one. -/
def Obligations.StepRunsDecodedCommand : Prop :=
  ∀ (s : State) (d : Descriptor) (rest : List HostAction) (i : Instr),
    s.script = .submit d :: rest → s.fault = false → s.busy = false → decode d = .ok i →
    step s = exec i { s with script := rest, busy := true, cmdIndex := s.cmdIndex + 1 }

/-- R70, R170, R76: a SUBMIT has a next state exactly when the port is ready, whatever the descriptor; that state is idle, its
command index is one more, and the command either completed, with no fault recorded, or faulted, with a fault recorded. No command,
whatever its operands and the state, fails to end in a next state. (R70 gives no step to a SUBMIT while `FAULT = 1`. While
`BUSY = 1` it says only that the SUBMIT waits; that the model has no step there either is the model's choice, DEDUCED, log entry
8.) -/
def Obligations.SubmitEndsInOneOfTwoOutcomes : Prop :=
  (∀ (s : State) (d : Descriptor) (rest : List HostAction), s.script = .submit d :: rest →
    ((∃ t, step s = .next t) ↔ s.cmdReady = true) ∧
    (∀ t, step s = .next t → t.busy = false ∧ t.cmdIndex = s.cmdIndex + 1 ∧ t.script = rest ∧
      (t.fault = false ∨ ∃ cause info,
        t = { s with fault := true, cause := Cause.code cause, info := info, busy := false, cmdIndex := s.cmdIndex + 1,
                     script := rest }))) ∧
  (∀ (i : Instr) (s : State), ∃ t, exec i s = .next t ∧ t.busy = false)

/-- R33, R77: the command index advances by one for each accepted command, whether it completes or faults; R190, R38: reset sets it to
0; no other interaction changes it. -/
def Obligations.CommandIndexCountsAcceptedCommands : Prop :=
  ∀ (s t : State), step s = .next t →
    (s.script = [] → t.cmdIndex = s.cmdIndex) ∧
    (∀ d rest, s.script = .submit d :: rest → t.cmdIndex = s.cmdIndex + 1) ∧
    (∀ rest, s.script = .reset :: rest → t.cmdIndex = 0) ∧
    (∀ i rest, s.script = .readReg i :: rest → t.cmdIndex = s.cmdIndex) ∧
    (∀ a rest, s.script = .readMem a :: rest → t.cmdIndex = s.cmdIndex) ∧
    (∀ a v rest, s.script = .writeMem a v :: rest → t.cmdIndex = s.cmdIndex)

/-- R35: READ_REG(i) answers the register's value to the host and changes no state of the core and no byte of memory, in every
state, a faulted one too (R174). -/
def Obligations.ReadRegChangesNoState : Prop :=
  ∀ (s : State) (i : BitVec 8) (rest : List HostAction), s.script = .readReg i :: rest →
    ∃ t, step s = .next t ∧ t.replies = .reg i (s.readReg i) :: s.replies ∧ s.sameCore t ∧ t.mem = s.mem ∧
      t.memSize = s.memSize ∧ t.script = rest

/-- R34, R35: the five status registers, bit by bit. CTR and POS are stated where `INITED = 1`; while `INITED = 0` only the reserved
bits of POS are (their other bits are free values). Indices 0x05 to 0xFF read 0. -/
def Obligations.StatusRegisterLayout : Prop :=
  ∀ s : State,
    ((s.readReg 0x00).getLsbD 0 = s.inited ∧ (s.readReg 0x00).getLsbD 1 = s.fault ∧ (s.readReg 0x00).getLsbD 2 = s.busy ∧
      ∀ k, 3 ≤ k → (s.readReg 0x00).getLsbD k = false) ∧
    (s.readReg 0x01).toNat = s.cause.toNat ∧
    s.readReg 0x02 = s.info ∧
    (s.inited = true → (s.readReg 0x03).toNat = s.cipher.st[13].toNat * 2 ^ 32 + s.cipher.st[12].toNat) ∧
    (s.inited = true → (s.readReg 0x04).toNat = s.cipher.pos.toNat) ∧
    (∀ k, 7 ≤ k → (s.readReg 0x04).getLsbD k = false) ∧
    (∀ i : BitVec 8, 5 ≤ i.toNat → s.readReg i = 0)

/-- R50, R58: buffer memory is plain storage for the host: a write to an address below `MEM_SIZE` changes that byte and no other,
a read returns the stored byte and changes nothing, and an address at or beyond `MEM_SIZE` names no byte, so that the access has no
next state. Neither changes the core. -/
def Obligations.HostMemoryIsPlainStorage : Prop :=
  (∀ (s : State) (a : DWord) (v : Byte) (rest : List HostAction), s.mem.wf → s.script = .writeMem a v :: rest →
    a.toNat < s.memSize →
    ∃ t, step s = .next t ∧ t.mem.read a.toNat = v ∧ (∀ x, x ≠ a.toNat → t.mem.read x = s.mem.read x) ∧ s.sameCore t) ∧
  (∀ (s : State) (a : DWord) (rest : List HostAction), s.script = .readMem a :: rest → a.toNat < s.memSize →
    ∃ t, step s = .next t ∧ t.replies = .byte a (s.mem.read a.toNat) :: s.replies ∧ t.mem = s.mem ∧ s.sameCore t) ∧
  (∀ (s : State) (a : DWord) (v : Byte) (rest : List HostAction),
    s.script = .readMem a :: rest ∨ s.script = .writeMem a v :: rest → s.memSize ≤ a.toNat →
    step s = .fault (.hostOutsideMemory a))

/-- R190, R38: what RESET does in every state: `INITED`, `FAULT`, `CAUSE`, `INFO` and `BUSY` become 0 and the command index 0,
buffer memory is not touched, and the port is ready. (What `ST`, `KS` and `pos` become is left open by the spec; nothing is said of
them.) -/
def Obligations.ResetClearsStatusAndKeepsMemory : Prop :=
  ∀ (s : State) (rest : List HostAction), s.script = .reset :: rest →
    ∃ t, step s = .next t ∧ t.inited = false ∧ t.fault = false ∧ t.cause = 0 ∧ t.info = 0 ∧ t.busy = false ∧ t.cmdIndex = 0 ∧
      t.mem = s.mem ∧ t.memSize = s.memSize ∧ t.cmdReady = true ∧ t.script = rest

/-! ## Faults (60_exceptions.md) -/

/-- R180: an accepted descriptor enters the fault of the first check that fails, in the order of the rule, with the cause and
information word of R171; and where every check passes, the command completes with no fault. -/
def Obligations.SubmitReportsFirstFailingCheck : Prop :=
  ∀ (s : State) (d : Descriptor) (rest : List HostAction),
    s.script = .submit d :: rest → s.fault = false → s.busy = false →
    (∀ cause info, firstFailure d s = some (cause, info) →
      step s = .next { s with fault := true, cause := Cause.code cause, info := info, busy := false,
                              cmdIndex := s.cmdIndex + 1, script := rest }) ∧
    (firstFailure d s = none → ∃ t, step s = .next t ∧ t.fault = false ∧ t.busy = false)

/-- R172, R173: faults are precise. A submission that ends with a fault recorded changes `FAULT`, `CAUSE`, `INFO`, and `BUSY` (which
is 0 again), beside the command index and the host's script; `ST`, `KS`, `pos`, `INITED` and all of memory are as they were. -/
def Obligations.FaultsArePrecise : Prop :=
  ∀ (s t : State) (d : Descriptor) (rest : List HostAction),
    s.script = .submit d :: rest → step s = .next t → t.fault = true →
    t.cipher = s.cipher ∧ t.inited = s.inited ∧ t.mem = s.mem ∧ t.memSize = s.memSize ∧ t.busy = false ∧
      t.cmdIndex = s.cmdIndex + 1 ∧ t.replies = s.replies ∧ t.draws = s.draws ∧ t.script = rest ∧
      (∃ c : Cause, t.cause = c.code)

/-- R174: a fault is sticky. While `FAULT = 1` a SUBMIT has no step; no interaction but RESET changes the fault record, `ST`, `KS`,
`pos` or `INITED`; READ_REG keeps working; and RESET clears `FAULT`, `CAUSE`, `INFO` and `INITED`. -/
def Obligations.FaultIsStickyUntilReset : Prop :=
  ∀ s : State, s.fault = true →
    (∀ d rest, s.script = .submit d :: rest → step s = .fault .haltedByFault) ∧
    (∀ t, step s = .next t → (∀ rest, s.script ≠ .reset :: rest) → s.sameCore t) ∧
    (∀ i rest, s.script = .readReg i :: rest → ∃ t, step s = .next t ∧ t.replies = .reg i (s.readReg i) :: s.replies) ∧
    (∀ rest, s.script = .reset :: rest →
      ∃ t, step s = .next t ∧ t.fault = false ∧ t.cause = 0 ∧ t.info = 0 ∧ t.inited = false)

/-- R30: `FAULT`, `CAUSE` and `INFO` are written only by fault entry and by reset: reset sets all three to 0; any other step that
changes one of them is a SUBMIT accepted with `FAULT = 0`, after which `FAULT = 1`; and while `FAULT = 1` no command is accepted. -/
def Obligations.FaultRecordWrittenOnlyByFaultEntryAndReset : Prop :=
  (∀ (s t : State), step s = .next t →
    (∀ rest, s.script = .reset :: rest → t.fault = false ∧ t.cause = 0 ∧ t.info = 0) ∧
    ((∀ rest, s.script ≠ .reset :: rest) → ¬ (t.fault = s.fault ∧ t.cause = s.cause ∧ t.info = s.info) →
      s.fault = false ∧ t.fault = true ∧ ∃ d rest, s.script = .submit d :: rest)) ∧
  (∀ (s : State) (cause : Cause) (info : DWord),
    (s.faultEntry cause info).fault = true ∧ (s.faultEntry cause info).cause = cause.code ∧
      (s.faultEntry cause info).info = info) ∧
  (∀ (s : State) (d : Descriptor) (rest : List HostAction), s.fault = true → s.script = .submit d :: rest →
    ∀ t, step s ≠ .next t) ∧
  State.reset.fault = false ∧ State.reset.cause = 0 ∧ State.reset.info = 0

/-- R29: `INITED` is 0 after reset; an INIT that completes sets it to 1, a second one too; nothing else writes it; and a CRYPT or
DISCARD submitted while it is 0 faults with NOT_INITIALIZED. -/
def Obligations.InitedWrittenOnlyByInitAndReset : Prop :=
  State.reset.inited = false ∧
  ∀ (s t : State), step s = .next t →
    (∀ rest, s.script = .reset :: rest → t.inited = false) ∧
    (∀ d rest a b, s.script = .submit d :: rest → decode d = .ok (.init a b) → t.fault = false → t.inited = true) ∧
    (t.inited ≠ s.inited →
      (∃ rest, s.script = .reset :: rest) ∨
      (∃ d rest a b, s.script = .submit d :: rest ∧ decode d = .ok (.init a b) ∧ t.fault = false)) ∧
    (∀ d rest i, s.script = .submit d :: rest → decode d = .ok i → (i.opcode = .crypt ∨ i.opcode = .discard) →
      s.inited = false → t.fault = true ∧ t.cause = 0x03 ∧ t.info = 0)

/-- R175: an `OPC` of 0x00 or 0x05 to 0xFF raises ILLEGAL_OPCODE (0x01), and `INFO` is the whole of `D0`. -/
def Obligations.UnassignedOpcodeFaults : Prop :=
  ∀ (s : State) (d : Descriptor) (rest : List HostAction),
    s.script = .submit d :: rest → s.fault = false → s.busy = false → (opcodeValue d = 0 ∨ 5 ≤ opcodeValue d) →
    step s = .next { s with fault := true, cause := 0x01, info := d.d0, busy := false, cmdIndex := s.cmdIndex + 1,
                            script := rest }

/-- R179: with an assigned opcode, a nonzero `RSV` raises RESERVED_NONZERO (0x02) with `INFO` 0; otherwise a nonzero operand that
must be 0 raises it with the lowest such word index: 3 for INIT's `C`, 1 for DISCARD's `A`, 2 for DISCARD's `B` when `A` is 0. -/
def Obligations.ReservedNonzeroFaults : Prop :=
  ∀ (s : State) (d : Descriptor) (rest : List HostAction) (info : DWord),
    s.script = .submit d :: rest → s.fault = false → s.busy = false →
    (1 ≤ opcodeValue d ∧ opcodeValue d ≤ 4 ∧
      ((d.d0.toNat / 256 ≠ 0 ∧ info = 0) ∨
       (d.d0.toNat / 256 = 0 ∧ opcodeValue d = 1 ∧ d.d3 ≠ 0 ∧ info = 3) ∨
       (d.d0.toNat / 256 = 0 ∧ opcodeValue d = 3 ∧ d.d1 ≠ 0 ∧ info = 1) ∨
       (d.d0.toNat / 256 = 0 ∧ opcodeValue d = 3 ∧ d.d1 = 0 ∧ d.d2 ≠ 0 ∧ info = 2))) →
    step s = .next { s with fault := true, cause := 0x02, info := info, busy := false, cmdIndex := s.cmdIndex + 1,
                            script := rest }

/-- R176: CRYPT and DISCARD raise NOT_INITIALIZED (0x03) when `INITED = 0`, whatever the length, 0 too; INIT and HCHACHA20 never
raise it. -/
def Obligations.NotInitializedFaults : Prop :=
  (∀ (s : State) (a b c : DWord), s.inited = false →
    exec (.crypt a b c) s = .next { s with fault := true, cause := 0x03, info := 0, busy := false } ∧
    exec (.discard c) s = .next { s with fault := true, cause := 0x03, info := 0, busy := false }) ∧
  (∀ (s t : State) (a b c : DWord), s.fault = false →
    exec (.init a b) s = .next t ∨ exec (.hchacha20 a b c) s = .next t → ¬ (t.fault = true ∧ t.cause = 0x03))

/-- R177, R55: a range that does not lie in buffer memory raises ACCESS (0x04) with the index of its descriptor word, ranges checked
in order, before anything is read or written. -/
def Obligations.AccessFaults : Prop :=
  ∀ (s : State) (a b c : DWord),
    (¬ s.fits a 32 → exec (.init a b) s = .next { s with fault := true, cause := 0x04, info := 1, busy := false }) ∧
    (s.fits a 32 → ¬ s.fits b 24 →
      exec (.init a b) s = .next { s with fault := true, cause := 0x04, info := 2, busy := false }) ∧
    (s.inited = true → ¬ s.fits a c.toNat →
      exec (.crypt a b c) s = .next { s with fault := true, cause := 0x04, info := 1, busy := false }) ∧
    (s.inited = true → s.fits a c.toNat → ¬ s.fits b c.toNat →
      exec (.crypt a b c) s = .next { s with fault := true, cause := 0x04, info := 2, busy := false }) ∧
    (¬ s.fits a 32 → exec (.hchacha20 a b c) s = .next { s with fault := true, cause := 0x04, info := 1, busy := false }) ∧
    (s.fits a 32 → ¬ s.fits b 16 →
      exec (.hchacha20 a b c) s = .next { s with fault := true, cause := 0x04, info := 2, busy := false }) ∧
    (s.fits a 32 → s.fits b 16 → ¬ s.fits c 32 →
      exec (.hchacha20 a b c) s = .next { s with fault := true, cause := 0x04, info := 3, busy := false })

/-- R178, R151: a CRYPT of admitted ranges that partly overlap raises OVERLAP (0x05) with `INFO` 2. -/
def Obligations.OverlapFaults : Prop :=
  ∀ (s : State) (a b c : DWord), s.inited = true → s.fits a c.toNat → s.fits b c.toNat → partlyOverlap a b c.toNat →
    exec (.crypt a b c) s = .next { s with fault := true, cause := 0x05, info := 2, busy := false }

/-! ## The block counter and the keystream byte -/

/-- R23: `CTR = ST[13]:ST[12]`, and writing `CTR` writes the two halves and nothing else. -/
def Obligations.CounterIsTwoMatrixWords : Prop :=
  ∀ (c : Cipher) (v : DWord),
    c.ctr.toNat = c.st[13].toNat * 2 ^ 32 + c.st[12].toNat ∧
    (c.setCtr v).st[12].toNat = v.toNat % 2 ^ 32 ∧ (c.setCtr v).st[13].toNat = v.toNat / 2 ^ 32 ∧
    (∀ i : Fin 16, i ≠ 12 → i ≠ 13 → (c.setCtr v).st[i] = c.st[i]) ∧
    (c.setCtr v).ks = c.ks ∧ (c.setCtr v).pos = c.pos ∧ (c.setCtr v).ctr = v

/-- R135: INC_CTR adds modulo 2^64, splits the sum over the two words, carries out of `ST[12]` into `ST[13]`, wraps silently,
changes no other word, and changes nothing for `k = 0`. -/
def Obligations.IncCtrAddsModuloTwoPow64 : Prop :=
  ∀ (c : Cipher) (k : DWord),
    (c.incCtr k).st[12].toNat = (c.st[13].toNat * 2 ^ 32 + c.st[12].toNat + k.toNat) % 2 ^ 64 % 2 ^ 32 ∧
    (c.incCtr k).st[13].toNat = (c.st[13].toNat * 2 ^ 32 + c.st[12].toNat + k.toNat) % 2 ^ 64 / 2 ^ 32 ∧
    (∀ i : Fin 16, i ≠ 12 → i ≠ 13 → (c.incCtr k).st[i] = c.st[i]) ∧
    (c.incCtr k).ks = c.ks ∧ (c.incCtr k).pos = c.pos ∧ c.incCtr 0 = c

/-- R26: byte `p` of the keystream block is bits `8*(p mod 4)+7 : 8*(p mod 4)` of word `p div 4`, and the 64 bytes are the words
written out by `bytes32` one after another. -/
def Obligations.KeystreamBlockBytes : Prop :=
  ∀ ks : Matrix,
    (∀ (p : Nat) (h : p < 64), (ksByte ks p).toNat = (ks[p / 4]'(by omega)).toNat / 2 ^ (8 * (p % 4)) % 256) ∧
    (List.range 64).map (ksByte ks) = ks.toList.flatMap bytes32

/-- R11, R13, R51: words and bytes convert in little-endian order, a word is the reading of its own four bytes, and SIGMA is the
ASCII string "expand 32-byte k" read as four words. -/
def Obligations.WordsAreLittleEndian : Prop :=
  (∀ (b : Bytes) (j : Nat), (le32 b j).toNat =
    (b.getD (4 * j) 0).toNat + 2 ^ 8 * (b.getD (4 * j + 1) 0).toNat + 2 ^ 16 * (b.getD (4 * j + 2) 0).toNat +
      2 ^ 24 * (b.getD (4 * j + 3) 0).toNat) ∧
  (∀ w : Word, (bytes32 w).length = 4 ∧ (∀ k, k < 4 → ((bytes32 w).getD k 0).toNat = w.toNat / 2 ^ (8 * k) % 256) ∧
    le32 (bytes32 w) 0 = w) ∧
  (∀ i : Fin 4, sigma[i] =
    le32 [0x65, 0x78, 0x70, 0x61, 0x6e, 0x64, 0x20, 0x33, 0x32, 0x2d, 0x62, 0x79, 0x74, 0x65, 0x20, 0x6b] i)

/-! ## The permutation (40_permutation.md) -/

/-- R101: the quarter-round is the rule's twelve in-place assignments, for every quadruple of distinct indices; it changes no word
outside the quadruple, and all-zero words stay zero. -/
def Obligations.QuarterRoundIsTheInPlaceSteps : Prop :=
  ∀ (q : Quad) (x : Matrix),
    qr q x = quarterRoundInPlace q x ∧
    (∀ i : Fin 16, i ≠ q.a → i ≠ q.b → i ≠ q.c → i ≠ q.d → (qr q x)[i] = x[i]) ∧
    (x[q.a] = 0 → x[q.b] = 0 → x[q.c] = 0 → x[q.d] = 0 → qr q x = x)

/-- R102, R103: the four quarter-rounds of a column round, and of a diagonal round, give the same matrix in whatever order they are
done. -/
def Obligations.RoundsDoNotDependOnQuadrupleOrder : Prop :=
  (∀ (l : List Quad) (x : Matrix),
    l.Perm [{ a := 0, b := 4, c := 8, d := 12 }, { a := 1, b := 5, c := 9, d := 13 }, { a := 2, b := 6, c := 10, d := 14 },
      { a := 3, b := 7, c := 11, d := 15 }] → l.foldl (fun y q => quarterRoundInPlace q y) x = columnRound x) ∧
  (∀ (l : List Quad) (x : Matrix),
    l.Perm [{ a := 0, b := 5, c := 10, d := 15 }, { a := 1, b := 6, c := 11, d := 12 }, { a := 2, b := 7, c := 8, d := 13 },
      { a := 3, b := 4, c := 9, d := 14 }] → l.foldl (fun y q => quarterRoundInPlace q y) x = diagonalRound x)

/-- R104, R105, R107: PERMUTE is ten double rounds, a column round then a diagonal round each; it is one fixed sequence of 80
quarter-rounds, the same for every matrix; and the zero matrix is a fixed point. -/
def Obligations.PermuteIsEightyFixedQuarterRounds : Prop :=
  (∀ x : Matrix, permute x = (fun y => diagonalRound (columnRound y))^[10] x) ∧
  (∃ l : List Quad, l.length = 80 ∧ ∀ x : Matrix, permute x = l.foldl (fun y q => quarterRoundInPlace q y) x) ∧
  permute (Vector.replicate 16 0) = Vector.replicate 16 0

/-- R106: PERMUTE is a bijection on 16-word matrices. -/
def Obligations.PermuteIsBijective : Prop := Function.Bijective permute

/-! ## HChaCha20 (41_subkey.md) -/

/-- R121: HSUBKEY permutes the matrix of SIGMA, the key's words and the nonce's words, and its result is words 0 to 3 and 12 to 15
of the permuted matrix, each little-endian, with nothing added back. -/
def Obligations.SubkeyIsEightPermutedWords : Prop :=
  ∀ (key n16 : Bytes) (x : Matrix),
    x[0] = 0x61707865 → x[1] = 0x3320646e → x[2] = 0x79622d32 → x[3] = 0x6b206574 →
    (∀ j : Fin 8, x[4 + j.val] = le32 key j) → (∀ j : Fin 4, x[12 + j.val] = le32 n16 j) →
    hsubkey key n16 = [(0 : Fin 16), 1, 2, 3, 12, 13, 14, 15].flatMap (fun i => bytes32 (permute x)[i])

/-- R120: HCHACHA20 completes whenever its three ranges lie in buffer memory, `INITED = 1` or not: the 32 bytes from `C` on become
the subkey of the 48 input bytes as they were before the command, even where the ranges overlap; every other byte of memory, `ST`,
`KS`, `pos`, `INITED` and the fault record are unchanged. -/
def Obligations.HchachaWritesSubkey : Prop :=
  ∀ (s : State) (a b c : DWord), s.mem.wf → s.fits a 32 → s.fits b 16 → s.fits c 32 →
    ∃ t, exec (.hchacha20 a b c) s = .next t ∧
      t.mem.readBytes c.toNat 32 = hsubkey (s.mem.readBytes a.toNat 32) (s.mem.readBytes b.toNat 16) ∧
      (∀ x, outside x c 32 → t.mem.read x = s.mem.read x) ∧
      t = { s with mem := t.mem, busy := false }

/-- R122: HCHACHA20 has no dependence on the cipher state: two of them, in any two states, with the same input bytes write the same
output bytes. -/
def Obligations.HchachaDependsOnInputBytesOnly : Prop :=
  ∀ (s s' t t' : State) (a b c a' b' c' : DWord), s.mem.wf → s'.mem.wf →
    s.mem.readBytes a.toNat 32 = s'.mem.readBytes a'.toNat 32 → s.mem.readBytes b.toNat 16 = s'.mem.readBytes b'.toNat 16 →
    s.fault = false → s'.fault = false →
    exec (.hchacha20 a b c) s = .next t → exec (.hchacha20 a' b' c') s' = .next t' → t.fault = false → t'.fault = false →
    t.mem.readBytes c.toNat 32 = t'.mem.readBytes c'.toNat 32 ∧ t.cipher = s.cipher ∧ t'.cipher = s'.cipher

/-! ## INIT and BLOCK (42_keystream.md) -/

/-- R130: INIT completes whenever its two ranges lie in buffer memory, `INITED = 1` or not: `ST` holds SIGMA, the subkey of the key
and the first 16 nonce bytes, counter 0 and the last 8 nonce bytes; `pos` is 64 and `INITED` 1; `KS`, memory and the fault record
are unchanged. -/
def Obligations.InitBuildsFreshStream : Prop :=
  ∀ (s : State) (a b : DWord), s.fits a 32 → s.fits b 24 →
    ∃ t, exec (.init a b) s = .next t ∧
      t = { s with cipher := { s.cipher with st := t.cipher.st, pos := 64 }, inited := true, busy := false } ∧
      t.cipher.st[0] = 0x61707865 ∧ t.cipher.st[1] = 0x3320646e ∧ t.cipher.st[2] = 0x79622d32 ∧ t.cipher.st[3] = 0x6b206574 ∧
      (∀ j : Fin 8, t.cipher.st[4 + j.val] =
        le32 (hsubkey (s.mem.readBytes a.toNat 32) (s.mem.readBytes b.toNat 16)) j) ∧
      t.cipher.st[12] = 0 ∧ t.cipher.st[13] = 0 ∧
      (∀ j : Fin 2, t.cipher.st[14 + j.val] = le32 (s.mem.readBytes (b.toNat + 16) 8) j)

/-- R133: BLOCK: each word of `KS` becomes the permuted word plus the word of the original matrix, modulo 2^32; the counter rises
by one modulo 2^64; no other word of `ST` and not `pos` changes; and the previous `KS` and `pos` do not matter (R134). -/
def Obligations.BlockAddsOriginalMatrix : Prop :=
  ∀ c : Cipher,
    (∀ i : Fin 16, c.block.ks[i] = (permute c.st)[i] + c.st[i]) ∧
    c.block.ctr.toNat = (c.ctr.toNat + 1) % 2 ^ 64 ∧
    (∀ i : Fin 16, i ≠ 12 → i ≠ 13 → c.block.st[i] = c.st[i]) ∧
    c.block.pos = c.pos ∧
    (∀ d : Cipher, d.st = c.st → d.block.ks = c.block.ks ∧ d.block.st = c.block.st)

/-! ## CRYPT and DISCARD (43_stream.md) -/

/-- R150, R151: CRYPT completes whenever `INITED = 1`, both ranges lie in buffer memory, and they are the same, disjoint or empty.
Output byte `i` is INPUT BYTE `i` AS IT WAS BEFORE THE COMMAND, XORed with the keystream byte after `i` bytes have been used; every
byte outside the output range is unchanged; the cipher state is that after `C` bytes have been used; nothing else changes. -/
def Obligations.CryptWritesInputXorKeystream : Prop :=
  ∀ (s : State) (a b c : DWord), s.mem.wf → s.inited = true → s.fits a c.toNat → s.fits b c.toNat →
    sameOrDisjoint a b c.toNat →
    ∃ t, exec (.crypt a b c) s = .next t ∧
      (∀ i, i < c.toNat → t.mem.read (b.toNat + i) = s.mem.read (a.toNat + i) ^^^ (s.cipher.use i).nextByte) ∧
      (∀ x, outside x b c.toNat → t.mem.read x = s.mem.read x) ∧
      t = { s with cipher := s.cipher.use c.toNat, mem := t.mem, busy := false }

/-- R150, one byte: at `pos = 64` a BLOCK comes first and the byte is byte 0 of the new block, with `pos` 1 after it; otherwise
it is `KSBYTE(pos)` of the block in use, and only `pos` moves, by one. (The premise is 10_state.md R27.) -/
def Obligations.StreamByteRegeneratesLazily : Prop :=
  ∀ c : Cipher, c.pos.toNat ≤ 64 →
    (c.pos = 64 →
      (c.nextByte = ksByte c.block.ks 0 ∧ (c.use 1).st = c.block.st ∧ (c.use 1).ks = c.block.ks ∧ (c.use 1).pos = 1)) ∧
    (c.pos ≠ 64 →
      (c.nextByte = ksByte c.ks c.pos.toNat ∧ (c.use 1).st = c.st ∧ (c.use 1).ks = c.ks ∧
        (c.use 1).pos.toNat = c.pos.toNat + 1)) ∧
    (∀ m n, c.use (m + n) = (c.use m).use n) ∧ c.use 0 = c

/-- R153: DISCARD completes whenever `INITED = 1`. Where the block in use holds the `C` bytes, only `pos` moves, by `C`. Beyond it,
with `m` bytes left at the block boundary, the counter rises by `m div 64`, and, where `m mod 64` is not 0, one block is generated
at that counter, the counter rises by one more and `pos` is `m mod 64`; otherwise `pos` is 64 and `KS` is unchanged. No other word
of `ST`, no byte of memory and nothing else changes. (The premise on `pos` is 10_state.md R27, which every step keeps.) -/
def Obligations.DiscardSeeks : Prop :=
  ∀ (s : State) (c : DWord), s.inited = true → s.cipher.pos.toNat ≤ 64 →
    ∃ t, exec (.discard c) s = .next t ∧ t = { s with cipher := t.cipher, busy := false } ∧
      (∀ i : Fin 16, i ≠ 12 → i ≠ 13 → t.cipher.st[i] = s.cipher.st[i]) ∧
      (c.toNat ≤ 64 - s.cipher.pos.toNat →
        t.cipher.st = s.cipher.st ∧ t.cipher.ks = s.cipher.ks ∧ t.cipher.pos.toNat = s.cipher.pos.toNat + c.toNat) ∧
      (∀ m, c.toNat = (64 - s.cipher.pos.toNat) + m → 0 < m →
        (m % 64 = 0 → t.cipher.ctr = s.cipher.ctr + BitVec.ofNat 64 (m / 64) ∧ t.cipher.ks = s.cipher.ks ∧
          t.cipher.pos = 64) ∧
        (m % 64 ≠ 0 → t.cipher.ctr = s.cipher.ctr + BitVec.ofNat 64 (m / 64) + 1 ∧
          t.cipher.ks = blockFn s.cipher.st (s.cipher.ctr + BitVec.ofNat 64 (m / 64)) ∧
          t.cipher.pos.toNat = m % 64))

/-- R137, R199: what each completed command does to the counter: INIT sets it to 0, HCHACHA20 leaves it, and a CRYPT or DISCARD of
`C` bytes raises it by one for each 64 bytes begun beyond the block in use, modulo 2^64. -/
def Obligations.CounterCountsBlocks : Prop :=
  ∀ (s t : State) (a b c : DWord), s.fault = false → s.cipher.pos.toNat ≤ 64 → t.fault = false →
    (exec (.init a b) s = .next t → t.cipher.ctr = 0) ∧
    (exec (.hchacha20 a b c) s = .next t → t.cipher.ctr = s.cipher.ctr) ∧
    (exec (.crypt a b c) s = .next t ∨ exec (.discard c) s = .next t →
      t.cipher.ctr = s.cipher.ctr + BitVec.ofNat 64 (blocksBeyond s.cipher.pos.toNat c.toNat))

/-- R24: between two INITs words 0 to 11, 14 and 15 of `ST` do not change, and words 12 and 13 change only in a CRYPT or a DISCARD:
any step that changes one of the former is a completed INIT or a RESET, and any that changes one of the latter is one of these or a
completed CRYPT or DISCARD. -/
def Obligations.MatrixWordsFixedBetweenInits : Prop :=
  ∀ (s t : State), step s = .next t → (∀ rest, s.script ≠ .reset :: rest) →
    (∀ d rest a b, s.script = .submit d :: rest → decode d ≠ .ok (.init a b)) →
    (∀ i : Fin 16, i ≠ 12 → i ≠ 13 → t.cipher.st[i] = s.cipher.st[i]) ∧
    (t.cipher.st ≠ s.cipher.st →
      ∃ d rest i, s.script = .submit d :: rest ∧ decode d = .ok i ∧ (i.opcode = .crypt ∨ i.opcode = .discard) ∧ t.fault = false)

/-- R154: from the same state, a DISCARD of `C` bytes leaves `ST` and `pos` as a CRYPT of `C` bytes does, and `KS` too where the
final `pos` is below 64; every later keystream byte is the same after either. -/
def Obligations.DiscardMatchesCrypt : Prop :=
  ∀ (s t u : State) (a b c : DWord), s.fault = false → s.inited = true → s.cipher.pos.toNat ≤ 64 →
    exec (.crypt a b c) s = .next t → t.fault = false → exec (.discard c) s = .next u →
    u.cipher.st = t.cipher.st ∧ u.cipher.pos = t.cipher.pos ∧ (t.cipher.pos.toNat < 64 → u.cipher.ks = t.cipher.ks) ∧
      (∀ n, (u.cipher.use n).nextByte = (t.cipher.use n).nextByte)

/-- R155: the stream invariant. After an INIT that completed and any interactions of the host but a RESET or a further INIT (commands
that complete, one that faults, reads and writes of the host), while fewer than 2^64 blocks have been used: `pos` is in `[1, 64]`;
where it is 64, `P = 64 * CTR`; where it is below, `P = 64 * (CTR - 1) + pos` and `KS = BLOCKFN(CTR - 1)` of the stream INIT made. -/
def Obligations.StreamPositionInvariant : Prop :=
  ∀ (s u t : State) (a b : DWord) (l : List HostAction) (p : Nat),
    completes (.init a b) s u → (∀ x ∈ l, x.keepsStream) → runHost l u 0 = some (t, p) → (p + 63) / 64 < 2 ^ 64 →
    1 ≤ t.cipher.pos.toNat ∧ t.cipher.pos.toNat ≤ 64 ∧
    (t.cipher.pos.toNat = 64 → p = 64 * t.cipher.ctr.toNat) ∧
    (t.cipher.pos.toNat < 64 →
      1 ≤ t.cipher.ctr.toNat ∧ p = 64 * (t.cipher.ctr.toNat - 1) + t.cipher.pos.toNat ∧
      t.cipher.ks = blockFn (initMatrix (s.memRead a 32) (s.memRead b 24)) (BitVec.ofNat 64 (t.cipher.ctr.toNat - 1)))

/-- R155, step by step: a completed INIT brings the core to position 0 of the stream of its key and nonce; and from ANY state at
position `p` of a stream, reached from reset or not, every step but RESET and an INIT that completes, while fewer than 2^64 blocks
have been used after it, leads to the position the step moves to: further by the length of a CRYPT or DISCARD that completed, and
otherwise unmoved. -/
def Obligations.StreamPositionKeptByEveryStep : Prop :=
  (∀ (s t : State) (a b : DWord) (rest : List HostAction),
    s.script = .submit (encode (.init a b)) :: rest → step s = .next t → t.fault = false →
    t.StreamAt (initMatrix (s.memRead a 32) (s.memRead b 24)) 0) ∧
  (∀ (s t : State) (m : Matrix) (p : Nat), s.StreamAt m p → step s = .next t →
    (s.script = [] → t.StreamAt m p) ∧
    (∀ x rest, s.script = x :: rest → x ≠ .reset → (∀ a b, x = .submit (encode (.init a b)) → t.fault = true) →
      (x.positionAfter t p + 63) / 64 < 2 ^ 64 → t.StreamAt m (x.positionAfter t p)))

/-- R156: the stream function. After an INIT and any interactions of the host but a RESET or a further INIT, a CRYPT at stream
position `P` writes `out[i] = in[i] ^ ks(P + i)`: a function of the key, the nonce, the position and the input alone, however the
earlier work was split. (Stated past 2^64 blocks too, where the block number wraps as R136 says.) -/
def Obligations.CryptOutputIsStreamFunction : Prop :=
  ∀ (s u t v : State) (a b x y c : DWord) (l : List HostAction) (p : Nat), s.mem.wf →
    completes (.init a b) s u → (∀ x ∈ l, x.keepsStream) → runHost l u 0 = some (t, p) → completes (.crypt x y c) t v →
    ∀ i, i < c.toNat → v.mem.read (y.toNat + i) =
      t.mem.read (x.toNat + i) ^^^ streamByte (s.memRead a 32) (s.memRead b 24) (p + i)

/-- R152: CRYPT is its own inverse. A CRYPT at stream position `P` turned the bytes at `a` into the bytes at `b`. In any machine whose
INIT took the same key and nonce bytes and whose stream has come to the same position (by a DISCARD of `P`, or in any other way), a
CRYPT of those bytes gives the first bytes back. -/
def Obligations.CryptIsSelfInverse : Prop :=
  ∀ (s s0 s1 s2 u u0 u1 u2 : State) (k n a b k' n' b' d c : DWord) (l l' : List HostAction) (p : Nat),
    s.mem.wf → u.mem.wf → (∀ x ∈ l, x.keepsStream) → (∀ x ∈ l', x.keepsStream) →
    completes (.init k n) s s0 → runHost l s0 0 = some (s1, p) → completes (.crypt a b c) s1 s2 →
    completes (.init k' n') u u0 → u.memRead k' 32 = s.memRead k 32 → u.memRead n' 24 = s.memRead n 24 →
    runHost l' u0 0 = some (u1, p) → u1.memRead b' c.toNat = s2.memRead b c.toNat → completes (.crypt b' d c) u1 u2 →
    u2.memRead d c.toNat = s1.memRead a c.toNat

/-- E4 and R156: determinism under chunking. A CRYPT of `m + n` bytes that completes leaves the very state that a CRYPT of the first
`m` bytes and then one of the other `n` leave. (The premise on `MEM_SIZE` is 00_scope.md R8.) -/
def Obligations.CryptChunksCompose : Prop :=
  ∀ (s t : State) (a b m n : DWord), m.toNat + n.toNat < 2 ^ 64 → s.memSize ≤ 2 ^ 64 → s.fault = false →
    exec (.crypt a b (m + n)) s = .next t → t.fault = false →
    ∃ u v, exec (.crypt a b m) s = .next u ∧ u.fault = false ∧ exec (.crypt (a + m) (b + m) n) u = .next v ∧
      v.fault = false ∧ v = t

/-- R197: the effects of DISCARDs add: two of them leave `ST` and `pos` as one DISCARD of the sum does, and the same keystream
follows. -/
def Obligations.DiscardsAdd : Prop :=
  ∀ (s t u v : State) (m n : DWord), m.toNat + n.toNat < 2 ^ 64 → s.inited = true → s.cipher.pos.toNat ≤ 64 →
    exec (.discard m) s = .next t → exec (.discard n) t = .next u → exec (.discard (m + n)) s = .next v →
    u.cipher.st = v.cipher.st ∧ u.cipher.pos = v.cipher.pos ∧ (∀ k, (u.cipher.use k).nextByte = (v.cipher.use k).nextByte)

/-- R136: after 2^64 blocks the counter is what it was, and the keystream repeats, silently. (The premises are 10_state.md R28 and
43_stream.md R155, which every step keeps.) -/
def Obligations.KeystreamRepeatsAfterWrap : Prop :=
  ∀ c : Cipher, 1 ≤ c.pos.toNat → c.pos.toNat ≤ 64 → (c.pos.toNat < 64 → c.ks = blockFn c.st (c.ctr - 1)) →
    (c.use (64 * 2 ^ 64)).ctr = c.ctr ∧ (c.use (64 * 2 ^ 64)).pos = c.pos ∧
    ∀ n, (c.use (64 * 2 ^ 64 + n)).nextByte = (c.use n).nextByte

/-- R181: what is not a fault: a CRYPT or DISCARD of length 0 while `INITED = 1`, at any address, completes and changes nothing but
`BUSY`; an INIT while `INITED = 1` completes; a BLOCK at the last counter value wraps the counter to 0. -/
def Obligations.LengthZeroAndWrapAreNoFaults : Prop :=
  (∀ (s : State) (a b : DWord), s.inited = true →
    exec (.crypt a b 0) s = .next { s with busy := false } ∧ exec (.discard 0) s = .next { s with busy := false }) ∧
  (∀ (s : State) (a b : DWord), s.inited = true → s.fault = false → s.fits a 32 → s.fits b 24 →
    ∃ t, exec (.init a b) s = .next t ∧ t.fault = false ∧ t.inited = true) ∧
  (∀ c : Cipher, c.ctr.toNat = 2 ^ 64 - 1 → c.block.ctr = 0)

/-! ## Frames: what a command leaves unchanged, whether it completes or faults -/

/-- R130, R173: what INIT leaves unchanged: all of memory, `KS`, and, where it faults, `ST`, `pos` and `INITED` too; `CAUSE` and
`INFO` where it does not. -/
def Obligations.InitFrame : Prop :=
  ∀ (s t : State) (a b : DWord), exec (.init a b) s = .next t →
    (∀ x, t.mem.read x = s.mem.read x) ∧ t.cipher.ks = s.cipher.ks ∧ s.sameOutside t ∧ s.sameRecord t ∧
    (s.fault = false → t.fault = true → t.cipher = s.cipher ∧ t.inited = s.inited)

/-- R120, R173: what HCHACHA20 leaves unchanged: `ST`, `KS`, `pos`, `INITED`, and every byte of memory outside `[C, C+32)`; and where
it faults, all of memory. -/
def Obligations.HchachaFrame : Prop :=
  ∀ (s t : State) (a b c : DWord), exec (.hchacha20 a b c) s = .next t →
    (∀ x, outside x c 32 → t.mem.read x = s.mem.read x) ∧ t.cipher = s.cipher ∧ t.inited = s.inited ∧ s.sameOutside t ∧
    s.sameRecord t ∧ (s.fault = false → t.fault = true → t.mem = s.mem)

/-- R150, R173: what CRYPT leaves unchanged: `INITED`, every word of `ST` but the counter's two, and every byte of memory outside
`[B, B+C)`; and where it faults, all of memory and the cipher state. -/
def Obligations.CryptFrame : Prop :=
  ∀ (s t : State) (a b c : DWord), exec (.crypt a b c) s = .next t →
    (∀ x, outside x b c.toNat → t.mem.read x = s.mem.read x) ∧ t.inited = s.inited ∧
    (∀ i : Fin 16, i ≠ 12 → i ≠ 13 → t.cipher.st[i] = s.cipher.st[i]) ∧ s.sameOutside t ∧ s.sameRecord t ∧
    (s.fault = false → t.fault = true → t.mem = s.mem ∧ t.cipher = s.cipher)

/-- R153, R173: what DISCARD leaves unchanged: all of memory, `INITED`, every word of `ST` but the counter's two; and where it faults,
the whole cipher state. -/
def Obligations.DiscardFrame : Prop :=
  ∀ (s t : State) (c : DWord), exec (.discard c) s = .next t →
    (∀ x, t.mem.read x = s.mem.read x) ∧ t.inited = s.inited ∧
    (∀ i : Fin 16, i ≠ 12 → i ≠ 13 → t.cipher.st[i] = s.cipher.st[i]) ∧ s.sameOutside t ∧ s.sameRecord t ∧
    (s.fault = false → t.fault = true → t.cipher = s.cipher)

/-- R57: each command touches exactly its ranges. In another memory that agrees on the bytes the command reads, it has the same
outcome for every register and writes the same bytes; and in neither does any byte outside the ranges it writes change. -/
def Obligations.CommandsTouchOnlyTheirRanges : Prop :=
  ∀ (i : Instr) (s t : State) (m : Memory), s.mem.wf → m.wf → s.fault = false →
    (∀ r ∈ readRanges i, ∀ k, k < r.2 → m.read (r.1.toNat + k) = s.mem.read (r.1.toNat + k)) →
    exec i s = .next t →
    ∃ t', exec i { s with mem := m } = .next t' ∧ t' = { t with mem := t'.mem } ∧
      (t.fault = false → ∀ r ∈ writeRanges i, ∀ k, k < r.2 → t'.mem.read (r.1.toNat + k) = t.mem.read (r.1.toNat + k)) ∧
      (∀ x, (∀ r ∈ writeRanges i, outside x r.1 r.2) → t.mem.read x = s.mem.read x ∧ t'.mem.read x = m.read x)

/-! ## Invariants -/

/-- The state after reset meets the invariant. It rests on the model's own choices for `MEM_SIZE` and an empty memory list (log
entries 1 and 7), beside the spec's values. -/
def Obligations.ResetMeetsInvariant : Prop := State.reset.Inv

/-- Every step keeps the invariant: no host step observes `BUSY = 1` (R31); memory keeps its canonical form inside a legal
`MEM_SIZE` (R50); while `INITED = 1`, `pos` is in `[1, 64]` (R28), words 0 to 3 of `ST` are SIGMA (R22, R24) and `KS` is the block of the
counter before the last BLOCK where the block is in use (R155); and the fault record is one the spec can leave (R171). -/
def Obligations.StepKeepsInvariant : Prop := ∀ (s t : State), s.Inv → step s = .next t → t.Inv

/-- R27, R28: from any state whose cursor is in range, whatever the rest of it, a step leaves it in range: while `INITED = 1`, `pos`
is in `[1, 64]`. -/
def Obligations.StepKeepsCursorInRange : Prop := ∀ (s t : State), s.posOk → step s = .next t → t.posOk

/-- R58 and the model's form of memory: from any state whose memory is in canonical form, a step leaves it so. -/
def Obligations.StepKeepsMemoryCanonical : Prop := ∀ (s t : State), s.mem.wf → step s = .next t → t.mem.wf

/-! ## Several cores (10_state.md R41) -/

/-- R8, R41, R186: cores share nothing but buffer memory. A step of core `k` of a platform, which has at least one core, leaves
every item of state of every other core as it was, and all cores, as many as before, still reach one memory of one legal size.
(That one core steps at a time is the model's choice, log entry 11.) -/
def Obligations.CoresShareOnlyMemory : Prop :=
  ∀ (p q : Platform) (k : Nat), p.Legal → p.stepCore k = some (.next q) →
    q.Legal ∧ q.numInstances = p.numInstances ∧
    (∀ j s, j ≠ k → p.cores[j]? = some s → ∃ t, q.cores[j]? = some t ∧ t = { s with mem := t.mem }) ∧
    (∀ s, p.cores[k]? = some s → ∃ t, q.cores[k]? = some t ∧ step s = .next t)
end

