-- ==== Sys2Proof/Laws/State.lean ====
section
/-! SUPPORT. One lemma per field per update, true by definition, so that no later proof unfolds a record update. -/

namespace Sys2Proof.Machine

variable (s : State) (c : Cipher)

/-! ## `State.accept` -/

@[simp] theorem State.accept_cipher : s.accept.cipher = s.cipher := rfl
@[simp] theorem State.accept_inited : s.accept.inited = s.inited := rfl
@[simp] theorem State.accept_fault : s.accept.fault = s.fault := rfl
@[simp] theorem State.accept_cause : s.accept.cause = s.cause := rfl
@[simp] theorem State.accept_info : s.accept.info = s.info := rfl
@[simp] theorem State.accept_busy : s.accept.busy = true := rfl
@[simp] theorem State.accept_cmdIndex : s.accept.cmdIndex = s.cmdIndex + 1 := rfl
@[simp] theorem State.accept_mem : s.accept.mem = s.mem := rfl
@[simp] theorem State.accept_memSize : s.accept.memSize = s.memSize := rfl
@[simp] theorem State.accept_script : s.accept.script = s.script := rfl
@[simp] theorem State.accept_replies : s.accept.replies = s.replies := rfl
@[simp] theorem State.accept_draws : s.accept.draws = s.draws := rfl

/-! ## `State.complete` -/

@[simp] theorem State.complete_cipher : s.complete.cipher = s.cipher := rfl
@[simp] theorem State.complete_inited : s.complete.inited = s.inited := rfl
@[simp] theorem State.complete_fault : s.complete.fault = s.fault := rfl
@[simp] theorem State.complete_cause : s.complete.cause = s.cause := rfl
@[simp] theorem State.complete_info : s.complete.info = s.info := rfl
@[simp] theorem State.complete_busy : s.complete.busy = false := rfl
@[simp] theorem State.complete_cmdIndex : s.complete.cmdIndex = s.cmdIndex := rfl
@[simp] theorem State.complete_mem : s.complete.mem = s.mem := rfl
@[simp] theorem State.complete_memSize : s.complete.memSize = s.memSize := rfl
@[simp] theorem State.complete_script : s.complete.script = s.script := rfl
@[simp] theorem State.complete_replies : s.complete.replies = s.replies := rfl
@[simp] theorem State.complete_draws : s.complete.draws = s.draws := rfl

/-! ## `State.faultEntry` -/

@[simp] theorem State.faultEntry_cipher (cause : Cause) (info : DWord) : (s.faultEntry cause info).cipher = s.cipher := rfl
@[simp] theorem State.faultEntry_inited (cause : Cause) (info : DWord) : (s.faultEntry cause info).inited = s.inited := rfl
@[simp] theorem State.faultEntry_fault (cause : Cause) (info : DWord) : (s.faultEntry cause info).fault = true := rfl
@[simp] theorem State.faultEntry_cause (cause : Cause) (info : DWord) : (s.faultEntry cause info).cause = cause.code := rfl
@[simp] theorem State.faultEntry_info (cause : Cause) (info : DWord) : (s.faultEntry cause info).info = info := rfl
@[simp] theorem State.faultEntry_busy (cause : Cause) (info : DWord) : (s.faultEntry cause info).busy = false := rfl
@[simp] theorem State.faultEntry_cmdIndex (cause : Cause) (info : DWord) : (s.faultEntry cause info).cmdIndex = s.cmdIndex := rfl
@[simp] theorem State.faultEntry_mem (cause : Cause) (info : DWord) : (s.faultEntry cause info).mem = s.mem := rfl
@[simp] theorem State.faultEntry_memSize (cause : Cause) (info : DWord) : (s.faultEntry cause info).memSize = s.memSize := rfl
@[simp] theorem State.faultEntry_script (cause : Cause) (info : DWord) : (s.faultEntry cause info).script = s.script := rfl
@[simp] theorem State.faultEntry_replies (cause : Cause) (info : DWord) : (s.faultEntry cause info).replies = s.replies := rfl
@[simp] theorem State.faultEntry_draws (cause : Cause) (info : DWord) : (s.faultEntry cause info).draws = s.draws := rfl

/-! ## `State.memWrite` -/

@[simp] theorem State.memWrite_cipher (a : DWord) (bs : Bytes) : (s.memWrite a bs).cipher = s.cipher := rfl
@[simp] theorem State.memWrite_inited (a : DWord) (bs : Bytes) : (s.memWrite a bs).inited = s.inited := rfl
@[simp] theorem State.memWrite_fault (a : DWord) (bs : Bytes) : (s.memWrite a bs).fault = s.fault := rfl
@[simp] theorem State.memWrite_cause (a : DWord) (bs : Bytes) : (s.memWrite a bs).cause = s.cause := rfl
@[simp] theorem State.memWrite_info (a : DWord) (bs : Bytes) : (s.memWrite a bs).info = s.info := rfl
@[simp] theorem State.memWrite_busy (a : DWord) (bs : Bytes) : (s.memWrite a bs).busy = s.busy := rfl
@[simp] theorem State.memWrite_cmdIndex (a : DWord) (bs : Bytes) : (s.memWrite a bs).cmdIndex = s.cmdIndex := rfl
@[simp] theorem State.memWrite_mem (a : DWord) (bs : Bytes) : (s.memWrite a bs).mem = s.mem.writeBytes a.toNat bs := rfl
@[simp] theorem State.memWrite_memSize (a : DWord) (bs : Bytes) : (s.memWrite a bs).memSize = s.memSize := rfl
@[simp] theorem State.memWrite_script (a : DWord) (bs : Bytes) : (s.memWrite a bs).script = s.script := rfl
@[simp] theorem State.memWrite_replies (a : DWord) (bs : Bytes) : (s.memWrite a bs).replies = s.replies := rfl
@[simp] theorem State.memWrite_draws (a : DWord) (bs : Bytes) : (s.memWrite a bs).draws = s.draws := rfl

/-! ## `State.hostReset` -/

@[simp] theorem State.hostReset_inited : s.hostReset.inited = false := rfl
@[simp] theorem State.hostReset_fault : s.hostReset.fault = false := rfl
@[simp] theorem State.hostReset_cause : s.hostReset.cause = 0 := rfl
@[simp] theorem State.hostReset_info : s.hostReset.info = 0 := rfl
@[simp] theorem State.hostReset_busy : s.hostReset.busy = false := rfl
@[simp] theorem State.hostReset_cmdIndex : s.hostReset.cmdIndex = 0 := rfl
@[simp] theorem State.hostReset_mem : s.hostReset.mem = s.mem := rfl
@[simp] theorem State.hostReset_memSize : s.hostReset.memSize = s.memSize := rfl
@[simp] theorem State.hostReset_script : s.hostReset.script = s.script := rfl
@[simp] theorem State.hostReset_replies : s.hostReset.replies = s.replies := rfl
@[simp] theorem State.hostReset_draws : s.hostReset.draws = s.draws + 1 := rfl

/-! ## `State.withSubmit` -/

@[simp] theorem State.withSubmit_cipher (d : Descriptor) : (s.withSubmit d).cipher = s.cipher := rfl
@[simp] theorem State.withSubmit_inited (d : Descriptor) : (s.withSubmit d).inited = s.inited := rfl
@[simp] theorem State.withSubmit_fault (d : Descriptor) : (s.withSubmit d).fault = false := rfl
@[simp] theorem State.withSubmit_cause (d : Descriptor) : (s.withSubmit d).cause = s.cause := rfl
@[simp] theorem State.withSubmit_info (d : Descriptor) : (s.withSubmit d).info = s.info := rfl
@[simp] theorem State.withSubmit_busy (d : Descriptor) : (s.withSubmit d).busy = false := rfl
@[simp] theorem State.withSubmit_cmdIndex (d : Descriptor) : (s.withSubmit d).cmdIndex = s.cmdIndex := rfl
@[simp] theorem State.withSubmit_mem (d : Descriptor) : (s.withSubmit d).mem = s.mem := rfl
@[simp] theorem State.withSubmit_memSize (d : Descriptor) : (s.withSubmit d).memSize = s.memSize := rfl
@[simp] theorem State.withSubmit_script (d : Descriptor) : (s.withSubmit d).script = .submit d :: s.script := rfl
@[simp] theorem State.withSubmit_replies (d : Descriptor) : (s.withSubmit d).replies = s.replies := rfl
@[simp] theorem State.withSubmit_draws (d : Descriptor) : (s.withSubmit d).draws = s.draws := rfl

/-! ## `State.cryptByte` -/

@[simp] theorem State.cryptByte_cipher (a b : Nat) : (s.cryptByte a b).cipher = s.cipher.refill.advance := rfl
@[simp] theorem State.cryptByte_inited (a b : Nat) : (s.cryptByte a b).inited = s.inited := rfl
@[simp] theorem State.cryptByte_fault (a b : Nat) : (s.cryptByte a b).fault = s.fault := rfl
@[simp] theorem State.cryptByte_cause (a b : Nat) : (s.cryptByte a b).cause = s.cause := rfl
@[simp] theorem State.cryptByte_info (a b : Nat) : (s.cryptByte a b).info = s.info := rfl
@[simp] theorem State.cryptByte_busy (a b : Nat) : (s.cryptByte a b).busy = s.busy := rfl
@[simp] theorem State.cryptByte_cmdIndex (a b : Nat) : (s.cryptByte a b).cmdIndex = s.cmdIndex := rfl
@[simp] theorem State.cryptByte_mem (a b : Nat) : (s.cryptByte a b).mem = s.mem.write b (s.mem.read a ^^^ s.cipher.nextByte) := rfl
@[simp] theorem State.cryptByte_memSize (a b : Nat) : (s.cryptByte a b).memSize = s.memSize := rfl
@[simp] theorem State.cryptByte_script (a b : Nat) : (s.cryptByte a b).script = s.script := rfl
@[simp] theorem State.cryptByte_replies (a b : Nat) : (s.cryptByte a b).replies = s.replies := rfl
@[simp] theorem State.cryptByte_draws (a b : Nat) : (s.cryptByte a b).draws = s.draws := rfl

/-! ## `Cipher.setCtr` -/

@[simp] theorem Cipher.setCtr_ks (v : DWord) : (c.setCtr v).ks = c.ks := rfl
@[simp] theorem Cipher.setCtr_pos (v : DWord) : (c.setCtr v).pos = c.pos := rfl

/-! ## `Cipher.incCtr` -/

@[simp] theorem Cipher.incCtr_ks (k : DWord) : (c.incCtr k).ks = c.ks := rfl
@[simp] theorem Cipher.incCtr_pos (k : DWord) : (c.incCtr k).pos = c.pos := rfl

/-! ## `Cipher.block` -/

@[simp] theorem Cipher.block_ks : c.block.ks = blockWords c.st := rfl
@[simp] theorem Cipher.block_pos : c.block.pos = c.pos := rfl

/-! ## `Cipher.start` -/

@[simp] theorem Cipher.start_st (key nonce : Bytes) : (c.start key nonce).st = initMatrix key nonce := rfl
@[simp] theorem Cipher.start_ks (key nonce : Bytes) : (c.start key nonce).ks = c.ks := rfl
@[simp] theorem Cipher.start_pos (key nonce : Bytes) : (c.start key nonce).pos = 64 := rfl

/-! ## `Cipher.advance` -/

@[simp] theorem Cipher.advance_st : c.advance.st = c.st := rfl
@[simp] theorem Cipher.advance_ks : c.advance.ks = c.ks := rfl
@[simp] theorem Cipher.advance_pos : c.advance.pos = c.pos + 1 := rfl

/-! ## `Cipher.consume` -/

@[simp] theorem Cipher.consume_st (k : Nat) : (c.consume k).st = c.st := rfl
@[simp] theorem Cipher.consume_ks (k : Nat) : (c.consume k).ks = c.ks := rfl
@[simp] theorem Cipher.consume_pos (k : Nat) : (c.consume k).pos = BitVec.ofNat 7 (c.pos.toNat + k) := rfl

end Sys2Proof.Machine
end

