-- ==== Sys2Proof/Laws/Words.lean ====
section
/-! SUPPORT. Bytes, words and the block counter: what each conversion gives back, and what a counter update leaves alone. -/

namespace Sys2Proof.Machine

theorem length_bytes32 (w : Word) : (bytes32 w).length = 4 := rfl

/-- A word is the little-endian reading of its own four bytes. -/
theorem le32_bytes32 (w : Word) : le32 (bytes32 w) 0 = w := by
  apply BitVec.eq_of_getLsbD_eq
  intro i hi
  simp only [le32, bytes32, List.getD_cons_zero, List.getD_cons_succ, BitVec.getLsbD_or, BitVec.getLsbD_shiftLeft,
    BitVec.getLsbD_setWidth, BitVec.getLsbD_extractLsb', Nat.mul_zero, Nat.zero_add]
  interval_cases i <;> simp

/-- `le32` of a byte string reads four bytes of it and no others. -/
theorem le32_congr {b b' : Bytes} {j j' : Nat} (h : ∀ i < 4, b.getD (4 * j + i) 0 = b'.getD (4 * j' + i) 0) :
    le32 b j = le32 b' j' := by
  have h0 := h 0 (by omega)
  have h1 := h 1 (by omega)
  have h2 := h 2 (by omega)
  have h3 := h 3 (by omega)
  simp only [Nat.add_zero] at h0
  simp only [le32, h0, h1, h2, h3]

theorem tabulate_getElem (f : Fin 16 → Word) (i : Nat) (h : i < 16) : (tabulate f)[i] = f ⟨i, h⟩ := by
  interval_cases i <;> rfl

/-- Two matrices with the same sixteen words are the same. -/
theorem matrix_ext {x y : Matrix} (h : ∀ i : Fin 16, x[i] = y[i]) : x = y :=
  Vector.ext (fun i hi => h ⟨i, hi⟩)

/-! ## The block counter -/

theorem withCtr_other (st : Matrix) (v : DWord) {i : Nat} (hi : i < 16) (h12 : i ≠ 12) (h13 : i ≠ 13) :
    (withCtr v st)[i] = st[i] := by
  simp [withCtr, h12.symm, h13.symm]

theorem withCtr_low (st : Matrix) (v : DWord) : (withCtr v st)[12] = v.extractLsb' 0 32 := by
  simp [withCtr]

theorem withCtr_high (st : Matrix) (v : DWord) : (withCtr v st)[13] = v.extractLsb' 32 32 := by
  simp [withCtr]

/-- Writing the counter twice is writing it once. -/
theorem withCtr_withCtr (st : Matrix) (v w : DWord) : withCtr w (withCtr v st) = withCtr w st := by
  apply Vector.ext
  intro i hi
  by_cases h12 : i = 12
  · subst h12; rw [withCtr_low, withCtr_low]
  · by_cases h13 : i = 13
    · subst h13; rw [withCtr_high, withCtr_high]
    · rw [withCtr_other _ _ hi h12 h13, withCtr_other _ _ hi h12 h13, withCtr_other _ _ hi h12 h13]

@[simp] theorem Cipher.setCtr_st (c : Cipher) (v : DWord) : (c.setCtr v).st = withCtr v c.st := rfl

/-- The counter reads as it was written. -/
theorem Cipher.ctr_setCtr (c : Cipher) (v : DWord) : (c.setCtr v).ctr = v := by
  rw [Cipher.ctr, Cipher.setCtr_st, withCtr_low, withCtr_high]
  apply BitVec.eq_of_getLsbD_eq
  intro i hi
  rw [BitVec.getLsbD_append]
  split
  · next h => simp [h]
  · next h =>
    rw [BitVec.getLsbD_extractLsb', show 32 + (i - 32) = i by omega]
    simp [show i - 32 < 32 by omega]

theorem Cipher.setCtr_setCtr (c : Cipher) (v w : DWord) : (c.setCtr v).setCtr w = c.setCtr w := by
  simp [Cipher.setCtr, withCtr_withCtr]

/-- Writing the value the counter holds changes nothing. -/
theorem Cipher.setCtr_ctr (c : Cipher) : c.setCtr c.ctr = c := by
  have h : (c.setCtr c.ctr).st = c.st := by
    apply Vector.ext
    intro i hi
    by_cases h12 : i = 12
    · subst h12
      rw [Cipher.setCtr_st, withCtr_low, Cipher.ctr]
      apply BitVec.eq_of_getLsbD_eq
      intro j hj
      rw [BitVec.getLsbD_extractLsb', BitVec.getLsbD_append]
      simp [hj]
    · by_cases h13 : i = 13
      · subst h13
        rw [Cipher.setCtr_st, withCtr_high, Cipher.ctr]
        apply BitVec.eq_of_getLsbD_eq
        intro j hj
        rw [BitVec.getLsbD_extractLsb', BitVec.getLsbD_append]
        simp [hj]
      · exact withCtr_other _ _ hi h12 h13
  have e : c.setCtr c.ctr = { c with st := (c.setCtr c.ctr).st } := rfl
  rw [e, h]

theorem Cipher.ctr_incCtr (c : Cipher) (k : DWord) : (c.incCtr k).ctr = c.ctr + k := c.ctr_setCtr _

theorem Cipher.incCtr_zero (c : Cipher) : c.incCtr 0 = c := by
  simp [Cipher.incCtr, Cipher.setCtr_ctr]

/-- Increments add. -/
theorem Cipher.incCtr_incCtr (c : Cipher) (k l : DWord) : (c.incCtr k).incCtr l = c.incCtr (k + l) := by
  rw [Cipher.incCtr, Cipher.ctr_incCtr, Cipher.incCtr, Cipher.setCtr_setCtr, Cipher.incCtr, BitVec.add_assoc]

theorem Cipher.ctr_block (c : Cipher) : c.block.ctr = c.ctr + 1 := Cipher.ctr_incCtr _ 1

/-- The counter depends on the matrix only. -/
theorem Cipher.ctr_congr {c d : Cipher} (h : c.st = d.st) : c.ctr = d.ctr := by
  simp [Cipher.ctr, h]

end Sys2Proof.Machine
end

