-- ==== Sys2Proof/Laws/Cipher.lean ====
section
/-! SUPPORT. The stream: using keystream bytes one by one, the closed forms of DISCARD, and that the two move the cipher state
alike. -/

namespace Sys2Proof.Machine

section
variable (c : Cipher)

/-! ## One byte -/

theorem Cipher.refill_exhausted {c : Cipher} (h : c.pos = 64) : c.refill = { c.block with pos := 0 } := by
  simp [Cipher.refill, h]

theorem Cipher.refill_open {c : Cipher} (h : c.pos ≠ 64) : c.refill = c := by
  unfold Cipher.refill
  exact if_neg h

theorem Cipher.use_add (m n : Nat) : c.use (m + n) = (c.use m).use n := by
  induction m generalizing c with
  | zero => simp [Cipher.use]
  | succ m ih => rw [show m + 1 + n = (m + n) + 1 by omega, Cipher.use, ih, Cipher.use]

theorem Cipher.use_succ (n : Nat) : c.use (n + 1) = (c.use n).refill.advance := by
  rw [Cipher.use_add]; rfl

theorem Cipher.length_keystream (n : Nat) : (c.keystream n).length = n := by
  induction n generalizing c with
  | zero => rfl
  | succ n ih => simp [Cipher.keystream, ih]

/-- Keystream byte `i` is the next byte after `i` bytes have been used. -/
theorem Cipher.getD_keystream {n i : Nat} (h : i < n) : (c.keystream n).getD i 0 = (c.use i).nextByte := by
  induction n generalizing c i with
  | zero => omega
  | succ n ih =>
    cases i with
    | zero => rfl
    | succ i => rw [Cipher.keystream, List.getD_cons_succ, ih _ (by omega)]; rfl

/-- The keystream of `n + k` bytes is that of `n` and then that of the next `k`. -/
theorem Cipher.keystream_append (n k : Nat) : c.keystream (n + k) = c.keystream n ++ (c.use n).keystream k := by
  induction n generalizing c with
  | zero => simp [Cipher.keystream, Cipher.use]
  | succ n ih => rw [show n + 1 + k = (n + k) + 1 by omega, Cipher.keystream, ih]; rfl

theorem toNat_one7 : (1 : BitVec 7).toNat = 1 := rfl

theorem pos_toNat_advance {p : BitVec 7} (h : p.toNat < 64) : (p + 1).toNat = p.toNat + 1 := by
  rw [BitVec.toNat_add]
  show (p.toNat + 1) % 128 = p.toNat + 1
  omega

theorem pos_eq_64 {p : BitVec 7} : p = 64 ↔ p.toNat = 64 :=
  ⟨fun h => by rw [h]; rfl, fun h => BitVec.eq_of_toNat_eq h⟩

/-- The cursor after one byte: the next one, or 1 where the block was exhausted. -/
theorem Cipher.pos_useOne {c : Cipher} (h : c.pos.toNat ≤ 64) :
    c.refill.advance.pos.toNat = if c.pos.toNat = 64 then 1 else c.pos.toNat + 1 := by
  split
  · next h64 => rw [Cipher.refill_exhausted (pos_eq_64.mpr h64)]; rfl
  · next h64 =>
    rw [Cipher.refill_open (fun h => h64 (pos_eq_64.mp h))]
    exact pos_toNat_advance (by omega)

theorem Cipher.pos_use_le {c : Cipher} (h : c.pos.toNat ≤ 64) (n : Nat) : (c.use n).pos.toNat ≤ 64 := by
  induction n with
  | zero => exact h
  | succ n ih => rw [Cipher.use_succ, Cipher.pos_useOne ih]; split <;> omega

/-- A use of bytes that uses any leaves the cursor in `[1, 64]` (10_state.md R28). -/
theorem Cipher.pos_use_pos {c : Cipher} (h : c.pos.toNat ≤ 64) {n : Nat} (hn : 0 < n) : 1 ≤ (c.use n).pos.toNat := by
  obtain ⟨m, rfl⟩ : ∃ m, n = m + 1 := ⟨n - 1, by omega⟩
  rw [Cipher.use_succ, Cipher.pos_useOne (Cipher.pos_use_le h m)]
  split <;> omega

/-! ## DISCARD -/

/-- DISCARD of no more than the partly consumed block holds moves the cursor only (43_stream.md R153 corner case 2). -/
theorem Cipher.discard_within {c : Cipher} {n : Nat} (hp : c.pos.toNat ≤ 64) (h : n ≤ 64 - c.pos.toNat) :
    c.discard n = c.consume n := by
  have hk : c.leftover n = n := by
    unfold Cipher.leftover
    split <;> omega
  have h0 : BitVec.ofNat 64 ((n - n) / 64) = 0 := by simp
  simp only [Cipher.discard, hk, Cipher.skipBlocks]
  rw [if_pos (by omega), h0, Cipher.incCtr_zero]

/-- DISCARD of more: the block is exhausted, whole blocks are skipped, and one block is generated where bytes remain (R153). -/
theorem Cipher.discard_beyond {c : Cipher} {n : Nat} (hp : c.pos.toNat ≤ 64) (h : 64 - c.pos.toNat ≤ n) :
    c.discard n = (Cipher.skipBlocks (n - (64 - c.pos.toNat)) { c with pos := 64 }) := by
  have hk : c.leftover n = 64 - c.pos.toNat := by
    unfold Cipher.leftover
    split <;> omega
  have hc : c.consume (64 - c.pos.toNat) = { c with pos := 64 } := by
    unfold Cipher.consume
    rw [show c.pos.toNat + (64 - c.pos.toNat) = 64 by omega]
    rfl
  simp only [Cipher.discard, hk, hc]

/-! ## Only the counter's two words of `ST` ever move (10_state.md R24) -/

theorem Cipher.setCtr_other (c : Cipher) (v : DWord) {i : Fin 16} (h12 : i ≠ 12) (h13 : i ≠ 13) : (c.setCtr v).st[i] = c.st[i] :=
  withCtr_other c.st v i.isLt (fun e => h12 (Fin.ext e)) (fun e => h13 (Fin.ext e))

theorem Cipher.incCtr_other (c : Cipher) (k : DWord) {i : Fin 16} (h12 : i ≠ 12) (h13 : i ≠ 13) : (c.incCtr k).st[i] = c.st[i] :=
  c.setCtr_other _ h12 h13

theorem Cipher.block_other (c : Cipher) {i : Fin 16} (h12 : i ≠ 12) (h13 : i ≠ 13) : c.block.st[i] = c.st[i] :=
  Cipher.incCtr_other { c with ks := blockWords c.st } 1 h12 h13

theorem Cipher.use_other (n : Nat) {i : Fin 16} (h12 : i ≠ 12) (h13 : i ≠ 13) : (c.use n).st[i] = c.st[i] := by
  induction n with
  | zero => rfl
  | succ n ih =>
    rw [Cipher.use_succ, ← ih]
    show (c.use n).refill.st[i] = _
    by_cases hp : (c.use n).pos = 64
    · rw [Cipher.refill_exhausted hp]
      exact Cipher.block_other _ h12 h13
    · rw [Cipher.refill_open hp]

/-- `BLOCKFN` of two matrices that differ in the counter's words only (R134). -/
theorem blockFn_congr {x y : Matrix} (h : ∀ i : Fin 16, i ≠ 12 → i ≠ 13 → x[i] = y[i]) (v : DWord) : blockFn x v = blockFn y v := by
  refine congrArg blockWords (Vector.ext fun i hi => ?_)
  by_cases h12 : i = 12
  · subst h12
    rw [withCtr_low, withCtr_low]
  · by_cases h13 : i = 13
    · subst h13
      rw [withCtr_high, withCtr_high]
    · rw [withCtr_other _ _ hi h12 h13, withCtr_other _ _ hi h12 h13]
      exact h ⟨i, hi⟩ (fun e => h12 (congrArg Fin.val e)) (fun e => h13 (congrArg Fin.val e))

theorem Cipher.skipBlocks_whole {c : Cipher} {n : Nat} (h : n % 64 = 0) :
    c.skipBlocks n = c.incCtr (BitVec.ofNat 64 (n / 64)) := by
  simp [Cipher.skipBlocks, h]

theorem Cipher.skipBlocks_part {c : Cipher} {n : Nat} (h : n % 64 ≠ 0) :
    c.skipBlocks n = { (c.incCtr (BitVec.ofNat 64 (n / 64))).block with pos := BitVec.ofNat 7 (n % 64) } := by
  simp [Cipher.skipBlocks, h]

theorem Cipher.discard_other (n : Nat) {i : Fin 16} (h12 : i ≠ 12) (h13 : i ≠ 13) : (c.discard n).st[i] = c.st[i] := by
  by_cases h : (n - c.leftover n) % 64 = 0
  · rw [Cipher.discard, Cipher.skipBlocks_whole h]
    exact Cipher.incCtr_other _ _ h12 h13
  · rw [Cipher.discard, Cipher.skipBlocks_part h]
    exact (Cipher.block_other _ h12 h13).trans (Cipher.incCtr_other _ _ h12 h13)

/-! ## DISCARD moves the stream as CRYPT does (43_stream.md R154) -/

/-- Two cipher states that no later keystream byte tells apart: `KS` may differ only where the block is exhausted. -/
structure Cipher.Same (c d : Cipher) : Prop where
  st : c.st = d.st
  pos : c.pos = d.pos
  ks : c.pos ≠ 64 → c.ks = d.ks

theorem Cipher.Same.refl (c : Cipher) : c.Same c := ⟨rfl, rfl, fun _ => rfl⟩

theorem Cipher.Same.trans {c d e : Cipher} (h : c.Same d) (g : d.Same e) : c.Same e :=
  ⟨h.st.trans g.st, h.pos.trans g.pos, fun hp => (h.ks hp).trans (g.ks (h.pos ▸ hp))⟩

theorem Cipher.Same.symm {c d : Cipher} (h : c.Same d) : d.Same c :=
  ⟨h.st.symm, h.pos.symm, fun hp => (h.ks (h.pos ▸ hp)).symm⟩

theorem Cipher.block_congr {c d : Cipher} (h : c.st = d.st) : c.block.st = d.block.st ∧ c.block.ks = d.block.ks := by
  cases c; cases d; cases h; exact ⟨rfl, rfl⟩

/-- After a regeneration nothing tells them apart at all. -/
theorem Cipher.Same.refill {c d : Cipher} (h : c.Same d) : c.refill = d.refill := by
  by_cases hp : c.pos = 64
  · rw [Cipher.refill_exhausted hp, Cipher.refill_exhausted (h.pos ▸ hp)]
    have hb := Cipher.block_congr h.st
    simp only [hb.1, hb.2]
  · rw [Cipher.refill_open hp, Cipher.refill_open (h.pos ▸ hp)]
    have hk := h.ks hp
    cases c; cases d; cases h.st; cases h.pos; cases hk; rfl

theorem Cipher.Same.use {c d : Cipher} (h : c.Same d) (n : Nat) : (c.use n).Same (d.use n) := by
  induction n with
  | zero => exact h
  | succ n ih => rw [Cipher.use_succ, Cipher.use_succ, ih.refill]; exact .refl _

theorem Cipher.Same.nextByte {c d : Cipher} (h : c.Same d) : c.nextByte = d.nextByte := by
  simp [Cipher.nextByte, h.refill]

theorem Cipher.Same.keystream {c d : Cipher} (h : c.Same d) (n : Nat) : c.keystream n = d.keystream n := by
  induction n generalizing c d with
  | zero => rfl
  | succ n ih => rw [Cipher.keystream, Cipher.keystream, h.nextByte, h.refill]

/-- Exhausted ciphers with one matrix are the same. -/
theorem Cipher.Same.of_exhausted {c d : Cipher} (hst : c.st = d.st) (hc : c.pos = 64) (hd : d.pos = 64) : c.Same d :=
  ⟨hst, hc.trans hd.symm, fun h => absurd hc h⟩

/-- One more byte discarded is one more byte used. -/
theorem Cipher.discard_succ {c : Cipher} (hp : c.pos.toNat ≤ 64) (n : Nat) :
    (c.discard (n + 1)).Same (c.discard n).refill.advance := by
  by_cases h1 : n + 1 ≤ 64 - c.pos.toNat
  · rw [Cipher.discard_within hp h1, Cipher.discard_within hp (by omega), Cipher.refill_open]
    · refine ⟨rfl, BitVec.eq_of_toNat_eq ?_, fun _ => rfl⟩
      simp only [Cipher.consume_pos, Cipher.advance_pos, BitVec.toNat_add, BitVec.toNat_ofNat, toNat_one7]
      omega
    · rw [ne_eq, pos_eq_64, Cipher.consume_pos, BitVec.toNat_ofNat]
      omega
  · obtain ⟨m, hm⟩ : ∃ m, n = (64 - c.pos.toNat) + m := ⟨n - (64 - c.pos.toNat), by omega⟩
    rw [Cipher.discard_beyond hp (by omega), Cipher.discard_beyond hp (by omega), hm,
      show 64 - c.pos.toNat + m - (64 - c.pos.toNat) = m by omega,
      show 64 - c.pos.toNat + m + 1 - (64 - c.pos.toNat) = m + 1 by omega]
    generalize hd : ({ c with pos := 64 } : Cipher) = d
    have hd64 : d.pos = 64 := by rw [← hd]
    by_cases h0 : m % 64 = 0
    · rw [Cipher.skipBlocks_whole h0, Cipher.skipBlocks_part (by omega), show (m + 1) / 64 = m / 64 by omega,
        show (m + 1) % 64 = 1 by omega, Cipher.refill_exhausted (by simpa using hd64)]
      exact ⟨rfl, rfl, fun _ => rfl⟩
    · by_cases h63 : m % 64 = 63
      · rw [Cipher.skipBlocks_whole (by omega), Cipher.skipBlocks_part h0, h63, Cipher.refill_open (show (63 : BitVec 7) ≠ 64 by decide)]
        refine .of_exhausted ?_ (by simpa using hd64) rfl
        show (d.incCtr _).st = (Cipher.incCtr 1 { d.incCtr _ with ks := _ }).st
        rw [show (m + 1) / 64 = m / 64 + 1 by omega, BitVec.ofNat_add, ← Cipher.incCtr_incCtr]
        rfl
      · rw [Cipher.skipBlocks_part (by omega), Cipher.skipBlocks_part h0, show (m + 1) / 64 = m / 64 by omega,
          show (m + 1) % 64 = m % 64 + 1 by omega, Cipher.refill_open]
        · refine ⟨rfl, BitVec.eq_of_toNat_eq ?_, fun _ => rfl⟩
          simp only [Cipher.advance_pos, BitVec.toNat_add, BitVec.toNat_ofNat, toNat_one7]
          omega
        · rw [ne_eq, pos_eq_64, BitVec.toNat_ofNat]
          omega

end

end Sys2Proof.Machine
end

