-- ==== Sys2Proof/Laws/Memory.lean ====
section
/-! SUPPORT. Buffer memory: a read after a write, what a write leaves alone, and that every memory operation keeps the canonical
form and the bound on listed addresses. -/

namespace Sys2Proof.Machine.Memory

/-- Every listed byte lies below `n`. -/
abbrev below (n : Nat) (m : Memory) : Prop := ∀ x ∈ m, x.1 < n

theorem read_eq_unlisted_of_lt {m : Memory} {a : Nat} (h : ∀ x ∈ m, a < x.1) : m.read a = unlisted := by
  induction m with
  | nil => rfl
  | cons x m ih =>
    have hx := h x (by simp)
    have ha : a ≠ x.1 := by omega
    simp only [Memory.read, ha, if_false]
    exact ih (fun y hy => h y (by simp [hy]))

theorem wf_tail {x : Host.Cell} {m : Memory} (h : wf (x :: m)) : wf m :=
  ⟨(List.pairwise_cons.mp h.1).2, fun y hy => h.2 y (by simp [hy])⟩

theorem lt_of_wf_cons {x : Host.Cell} {m : Memory} (h : wf (x :: m)) : ∀ y ∈ m, x.1 < y.1 :=
  (List.pairwise_cons.mp h.1).1

theorem mem_cons {k : Nat} {v : Byte} {m : Memory} {x : Host.Cell} (h : x ∈ Memory.cons k v m) : x = (k, v) ∨ x ∈ m := by
  unfold Memory.cons at h
  split at h
  · exact .inr h
  · simpa using h

theorem mem_write {m : Memory} {a : Nat} {v : Byte} {x : Host.Cell} (h : x ∈ m.write a v) : x = (a, v) ∨ x ∈ m := by
  induction m with
  | nil => exact mem_cons h
  | cons y m ih =>
    simp only [Memory.write] at h
    split at h
    · exact mem_cons h
    · split at h
      · exact (mem_cons h).imp_right (by simp +contextual)
      · rcases List.mem_cons.mp h with h | h
        · exact .inr (by simp [h])
        · exact (ih h).imp_right (by simp +contextual)

theorem wf_cons {k : Nat} {v : Byte} {m : Memory} (h : wf m) (hk : ∀ x ∈ m, k < x.1) : wf (Memory.cons k v m) := by
  unfold Memory.cons
  split
  · exact h
  · next hv =>
    refine ⟨List.pairwise_cons.mpr ⟨hk, h.1⟩, fun x hx => ?_⟩
    rcases List.mem_cons.mp hx with rfl | hx
    · exact hv
    · exact h.2 x hx

/-- A write keeps the canonical form. -/
theorem wf_write {m : Memory} (h : wf m) (a : Nat) (v : Byte) : wf (m.write a v) := by
  induction m with
  | nil => exact wf_cons h (by simp)
  | cons y m ih =>
    have hy := lt_of_wf_cons h
    simp only [Memory.write]
    split
    · next ha => exact wf_cons h (fun x hx => by
        rcases List.mem_cons.mp hx with rfl | hx
        · exact ha
        · exact Nat.lt_trans ha (hy x hx))
    · split
      · next ha => exact wf_cons (wf_tail h) (fun x hx => by rw [ha]; exact hy x hx)
      · next h1 h2 =>
        have ih := ih (wf_tail h)
        refine ⟨List.pairwise_cons.mpr ⟨fun x hx => ?_, ih.1⟩, fun x hx => ?_⟩
        · rcases mem_write hx with rfl | hx
          · show y.1 < a
            omega
          · exact hy x hx
        · rcases List.mem_cons.mp hx with rfl | hx
          · exact h.2 _ (by simp)
          · exact ih.2 x hx

theorem below_write {m : Memory} {n : Nat} (h : below n m) {a : Nat} (ha : a < n) (v : Byte) : below n (m.write a v) := by
  intro x hx
  rcases mem_write hx with rfl | hx
  · exact ha
  · exact h x hx

theorem read_cons_same {k : Nat} {v : Byte} {m : Memory} (hk : ∀ x ∈ m, k < x.1) : (Memory.cons k v m).read k = v := by
  unfold Memory.cons
  split
  · next hv => rw [read_eq_unlisted_of_lt hk, hv]
  · simp [Memory.read]

theorem read_cons_other {k a : Nat} {v : Byte} {m : Memory} (h : a ≠ k) : (Memory.cons k v m).read a = m.read a := by
  unfold Memory.cons
  split
  · rfl
  · simp [Memory.read, h]

/-- A read after a write to the same address gives the byte written. -/
theorem read_write_same {m : Memory} (h : wf m) (a : Nat) (v : Byte) : (m.write a v).read a = v := by
  induction m with
  | nil => exact read_cons_same (by simp)
  | cons y m ih =>
    have hy := lt_of_wf_cons h
    simp only [Memory.write]
    split
    · next ha => exact read_cons_same (fun x hx => by
        rcases List.mem_cons.mp hx with rfl | hx
        · exact ha
        · exact Nat.lt_trans ha (hy x hx))
    · split
      · next ha => exact read_cons_same (fun x hx => by rw [ha]; exact hy x hx)
      · next h2 => simpa [Memory.read, h2] using ih (wf_tail h)

/-- A write leaves every other address alone. -/
theorem read_write_other (m : Memory) {a b : Nat} (h : b ≠ a) (v : Byte) : (m.write a v).read b = m.read b := by
  induction m with
  | nil => exact read_cons_other h
  | cons y m ih =>
    simp only [Memory.write]
    split
    · exact read_cons_other h
    · split
      · next ha => simp [read_cons_other h, Memory.read, show b ≠ y.1 from ha ▸ h]
      · simp [Memory.read, ih]

/-! ## Ranges -/

theorem length_readBytes (m : Memory) (a n : Nat) : (m.readBytes a n).length = n := by
  induction n generalizing a with
  | zero => rfl
  | succ n ih => simp [Memory.readBytes, ih]

theorem getD_readBytes (m : Memory) (a n i : Nat) (h : i < n) : (m.readBytes a n).getD i 0 = m.read (a + i) := by
  induction n generalizing a i with
  | zero => omega
  | succ n ih =>
    cases i with
    | zero => simp [Memory.readBytes]
    | succ i => rw [Memory.readBytes, List.getD_cons_succ, ih _ _ (by omega)]; congr 1; omega

/-- A range reads the same in two memories that agree on its bytes. -/
theorem readBytes_congr {m m' : Memory} {a n : Nat} (h : ∀ i < n, m.read (a + i) = m'.read (a + i)) :
    m.readBytes a n = m'.readBytes a n := by
  induction n generalizing a with
  | zero => rfl
  | succ n ih =>
    simp only [Memory.readBytes]
    congr 1
    · simpa using h 0 (by omega)
    · exact ih (fun i hi => by have := h (i + 1) (by omega); rwa [show a + 1 + i = a + (i + 1) by omega])

/-- A range reads as its two parts, one after the other. -/
theorem readBytes_append (m : Memory) (a n k : Nat) : m.readBytes a (n + k) = m.readBytes a n ++ m.readBytes (a + n) k := by
  induction n generalizing a with
  | zero => simp [Memory.readBytes]
  | succ n ih =>
    rw [show n + 1 + k = (n + k) + 1 by omega, Memory.readBytes, Memory.readBytes, ih, List.cons_append,
      show a + 1 + n = a + (n + 1) by omega]

/-- Writing two byte strings one after the other is writing them joined. -/
theorem writeBytes_append (m : Memory) (a : Nat) (x y : Bytes) :
    m.writeBytes a (x ++ y) = (m.writeBytes a x).writeBytes (a + x.length) y := by
  induction x generalizing m a with
  | nil => rfl
  | cons v x ih =>
    rw [List.cons_append, Memory.writeBytes, Memory.writeBytes, ih, List.length_cons, show a + 1 + x.length = a + (x.length + 1) by omega]

theorem wf_writeBytes {m : Memory} (h : wf m) (a : Nat) (bs : Bytes) : wf (m.writeBytes a bs) := by
  induction bs generalizing m a with
  | nil => exact h
  | cons v bs ih => exact ih (wf_write h a v) (a + 1)

theorem below_writeBytes {m : Memory} {n : Nat} (h : below n m) {a : Nat} {bs : Bytes} (ha : a + bs.length ≤ n) :
    below n (m.writeBytes a bs) := by
  induction bs generalizing m a with
  | nil => exact h
  | cons v bs ih =>
    simp only [List.length_cons] at ha
    exact ih (below_write h (by omega) v) (by omega)

/-- Writing a range leaves every address outside it alone. -/
theorem read_writeBytes_outside (m : Memory) {a b : Nat} {bs : Bytes} (h : b < a ∨ a + bs.length ≤ b) :
    (m.writeBytes a bs).read b = m.read b := by
  induction bs generalizing m a with
  | nil => rfl
  | cons v bs ih =>
    simp only [List.length_cons] at h
    rw [Memory.writeBytes, ih _ (by omega), read_write_other _ (by omega)]

/-- Byte `i` of a range that was written is byte `i` of what was written. -/
theorem read_writeBytes_inside {m : Memory} (h : wf m) {a i : Nat} {bs : Bytes} (hi : i < bs.length) :
    (m.writeBytes a bs).read (a + i) = bs.getD i 0 := by
  induction bs generalizing m a i with
  | nil => simp at hi
  | cons v bs ih =>
    simp only [List.length_cons] at hi
    cases i with
    | zero =>
      rw [Memory.writeBytes, read_writeBytes_outside _ (by omega)]
      simpa using read_write_same h a v
    | succ i =>
      rw [Memory.writeBytes, show a + (i + 1) = a + 1 + i by omega, ih (wf_write h a v) (by omega), List.getD_cons_succ]

theorem readBytes_writeBytes {m : Memory} (h : wf m) (a : Nat) (bs : Bytes) : (m.writeBytes a bs).readBytes a bs.length = bs := by
  induction bs generalizing m a with
  | nil => rfl
  | cons v bs ih =>
    simp only [Memory.writeBytes, List.length_cons, Memory.readBytes]
    rw [ih (wf_write h a v), read_writeBytes_outside _ (by omega), read_write_same h]

end Sys2Proof.Machine.Memory
end

