-- ==== Sys2Proof/Laws/Exec.lean ====
section
/-! SUPPORT. What each command, a submission and a step can do, said once: every later proof cites these cases and unfolds no
meaning. -/

namespace Sys2Proof.Machine

/-! ## Operands -/

/-- The admission of a range as the spec writes it (20_memory.md R55). -/
theorem valid_iff {s : State} {a : DWord} {n : Nat} :
    s.valid a n = true ↔ n = 0 ∨ (a.toNat < s.memSize ∧ n ≤ s.memSize - a.toNat) := by
  simp [State.valid]

/-- An admitted range ends inside buffer memory, or is empty. -/
theorem valid_bound {s : State} {a : DWord} {n : Nat} (h : s.valid a n = true) (hn : 0 < n) : a.toNat + n ≤ s.memSize := by
  have := valid_iff.mp h
  omega

/-- Ranges that do not overlap are the same or disjoint (43_stream.md R151). -/
theorem overlap_false {a b : DWord} {n : Nat} :
    overlap a b n = false ↔ n = 0 ∨ a = b ∨ a.toNat + n ≤ b.toNat ∨ b.toNat + n ≤ a.toNat := by
  simp only [overlap, decide_eq_false_iff_not, ne_eq]
  constructor
  · intro h
    by_cases hab : a = b
    · exact .inr (.inl hab)
    · by_cases hn : n = 0
      · exact .inl hn
      · rcases Nat.lt_or_ge a.toNat (b.toNat + n) with h1 | h1
        · rcases Nat.lt_or_ge b.toNat (a.toNat + n) with h2 | h2
          · exact absurd ⟨by omega, hab, h1, h2⟩ h
          · exact .inr (.inr (.inl h2))
        · exact .inr (.inr (.inr h1))
  · rintro h ⟨h1, h2, h3, h4⟩
    rcases h with h | h | h | h
    · omega
    · exact h2 h
    · omega
    · omega

/-! ## The loop of CRYPT -/

/-- The loop moves the cipher state and memory, and nothing else. -/
theorem cryptLoop_eq (n a b : Nat) (s : State) :
    s.cryptLoop n a b = { s with cipher := s.cipher.use n, mem := (s.cryptLoop n a b).mem } := by
  induction n generalizing a b s with
  | zero => rfl
  | succ n ih => rw [State.cryptLoop, ih]; rfl

/-- Where the ranges are the same or disjoint, the loop writes the input as it was before, XORed with the keystream. -/
theorem cryptLoop_mem {n a b : Nat} (s : State) (h : n = 0 ∨ a = b ∨ a + n ≤ b ∨ b + n ≤ a) :
    (s.cryptLoop n a b).mem = s.mem.writeBytes b (xorBytes (s.mem.readBytes a n) (s.cipher.keystream n)) := by
  induction n generalizing a b s with
  | zero => rfl
  | succ n ih =>
    rw [State.cryptLoop, ih _ (by omega)]
    have hr : (s.cryptByte a b).mem.readBytes (a + 1) n = s.mem.readBytes (a + 1) n :=
      Memory.readBytes_congr (fun i hi => Memory.read_write_other _ (by omega) _)
    rw [hr]
    rfl

theorem length_cryptOutput (m : Memory) (c : Cipher) (a n : Nat) :
    (xorBytes (m.readBytes a n) (c.keystream n)).length = n := by
  simp [xorBytes, Memory.length_readBytes, Cipher.length_keystream]

theorem getD_cryptOutput (m : Memory) (c : Cipher) {a n i : Nat} (h : i < n) :
    (xorBytes (m.readBytes a n) (c.keystream n)).getD i 0 = m.read (a + i) ^^^ (c.use i).nextByte := by
  have h1 := Memory.length_readBytes m a n
  have h2 := c.length_keystream n
  rw [← Memory.getD_readBytes m a n i h, ← c.getD_keystream h]
  simp [xorBytes, List.getD_eq_getElem?_getD, h1, h2, h]

/-! ## The commands -/

/-- Everything INIT can do. -/
theorem execInit_cases (a b : DWord) (s : State) :
    (s.valid a 32 = false ∧ execInit a b s = raise .access 1 s) ∨
    (s.valid a 32 = true ∧ s.valid b 24 = false ∧ execInit a b s = raise .access 2 s) ∨
    (s.valid a 32 = true ∧ s.valid b 24 = true ∧ execInit a b s =
      .next { s with cipher := s.cipher.start (s.memRead a 32) (s.memRead b 24), inited := true, busy := false }) := by
  unfold execInit
  cases s.valid a 32 <;> cases s.valid b 24 <;> simp [State.complete]

/-- Everything HCHACHA20 can do. -/
theorem execHchacha20_cases (a b c : DWord) (s : State) :
    (s.valid a 32 = false ∧ execHchacha20 a b c s = raise .access 1 s) ∨
    (s.valid a 32 = true ∧ s.valid b 16 = false ∧ execHchacha20 a b c s = raise .access 2 s) ∨
    (s.valid a 32 = true ∧ s.valid b 16 = true ∧ s.valid c 32 = false ∧ execHchacha20 a b c s = raise .access 3 s) ∨
    (s.valid a 32 = true ∧ s.valid b 16 = true ∧ s.valid c 32 = true ∧ execHchacha20 a b c s =
      .next { s with mem := s.mem.writeBytes c.toNat (s.derivedSubkey a b), busy := false }) := by
  unfold execHchacha20
  cases s.valid a 32 <;> cases s.valid b 16 <;> cases s.valid c 32 <;> simp [State.complete, State.memWrite]

/-- Everything CRYPT can do. -/
theorem execCrypt_cases (a b c : DWord) (s : State) :
    (s.inited = false ∧ execCrypt a b c s = raise .notInitialized 0 s) ∨
    (s.inited = true ∧ s.valid a c.toNat = false ∧ execCrypt a b c s = raise .access 1 s) ∨
    (s.inited = true ∧ s.valid a c.toNat = true ∧ s.valid b c.toNat = false ∧ execCrypt a b c s = raise .access 2 s) ∨
    (s.inited = true ∧ s.valid a c.toNat = true ∧ s.valid b c.toNat = true ∧ overlap a b c.toNat = true ∧
      execCrypt a b c s = raise .overlap 2 s) ∨
    (s.inited = true ∧ s.valid a c.toNat = true ∧ s.valid b c.toNat = true ∧ overlap a b c.toNat = false ∧
      execCrypt a b c s = .next { s with
        cipher := s.cipher.use c.toNat
        mem := s.mem.writeBytes b.toNat (xorBytes (s.memRead a c.toNat) (s.cipher.keystream c.toNat))
        busy := false }) := by
  unfold execCrypt
  cases hi : s.inited
  · simp
  · cases s.valid a c.toNat
    · simp
    · cases s.valid b c.toNat
      · simp
      · cases ho : overlap a b c.toNat
        · have hd : c.toNat = 0 ∨ a.toNat = b.toNat ∨ a.toNat + c.toNat ≤ b.toNat ∨ b.toNat + c.toNat ≤ a.toNat := by
            rcases overlap_false.mp ho with h | h | h
            · exact .inl h
            · exact .inr (.inl (by rw [h]))
            · exact .inr (.inr h)
          rw [cryptLoop_eq, cryptLoop_mem s hd]
          simp [State.complete, State.memRead, hi]
        · simp

/-- Everything DISCARD can do. -/
theorem execDiscard_cases (c : DWord) (s : State) :
    (s.inited = false ∧ execDiscard c s = raise .notInitialized 0 s) ∨
    (s.inited = true ∧ execDiscard c s = .next { s with cipher := s.cipher.discard c.toNat, busy := false }) := by
  unfold execDiscard
  cases s.inited <;> simp [State.complete]

/-! ## A command that completed -/

/-- INIT completed: both ranges were admitted, and this is the state it left. -/
theorem execInit_completed {a b : DWord} {s t : State} (h : execInit a b s = .next t) (hf : t.fault = false) :
    s.fault = false ∧ s.valid a 32 = true ∧ s.valid b 24 = true ∧
      t = { s with cipher := s.cipher.start (s.memRead a 32) (s.memRead b 24), inited := true, busy := false } := by
  rcases execInit_cases a b s with ⟨_, e⟩ | ⟨_, _, e⟩ | ⟨ha, hb, e⟩ <;> rw [e] at h
  · cases h; cases hf
  · cases h; cases hf
  · rw [Host.Outcome.next.injEq] at h
    subst h
    exact ⟨hf, ha, hb, rfl⟩

/-- HCHACHA20 completed: its three ranges were admitted, and this is the state it left. -/
theorem execHchacha20_completed {a b c : DWord} {s t : State} (h : execHchacha20 a b c s = .next t) (hf : t.fault = false) :
    s.fault = false ∧ s.valid a 32 = true ∧ s.valid b 16 = true ∧ s.valid c 32 = true ∧
      t = { s with mem := s.mem.writeBytes c.toNat (s.derivedSubkey a b), busy := false } := by
  rcases execHchacha20_cases a b c s with ⟨_, e⟩ | ⟨_, _, e⟩ | ⟨_, _, _, e⟩ | ⟨ha, hb, hc, e⟩ <;> rw [e] at h
  · cases h; cases hf
  · cases h; cases hf
  · cases h; cases hf
  · rw [Host.Outcome.next.injEq] at h
    subst h
    exact ⟨hf, ha, hb, hc, rfl⟩

/-- CRYPT completed: every check passed, and this is the state it left. -/
theorem execCrypt_completed {a b c : DWord} {s t : State} (h : execCrypt a b c s = .next t) (hf : t.fault = false) :
    s.fault = false ∧ s.inited = true ∧ s.valid a c.toNat = true ∧ s.valid b c.toNat = true ∧ overlap a b c.toNat = false ∧
      t = { s with
        cipher := s.cipher.use c.toNat
        mem := s.mem.writeBytes b.toNat (xorBytes (s.memRead a c.toNat) (s.cipher.keystream c.toNat))
        busy := false } := by
  rcases execCrypt_cases a b c s with ⟨_, e⟩ | ⟨_, _, e⟩ | ⟨_, _, _, e⟩ | ⟨_, _, _, _, e⟩ | ⟨hi, ha, hb, ho, e⟩ <;> rw [e] at h
  · cases h; cases hf
  · cases h; cases hf
  · cases h; cases hf
  · cases h; cases hf
  · rw [Host.Outcome.next.injEq] at h
    subst h
    exact ⟨hf, hi, ha, hb, ho, rfl⟩

/-- DISCARD completed: the core was initialized, and this is the state it left. -/
theorem execDiscard_completed {c : DWord} {s t : State} (h : execDiscard c s = .next t) (hf : t.fault = false) :
    s.fault = false ∧ s.inited = true ∧ t = { s with cipher := s.cipher.discard c.toNat, busy := false } := by
  rcases execDiscard_cases c s with ⟨_, e⟩ | ⟨hi, e⟩ <;> rw [e] at h
  · cases h; cases hf
  · rw [Host.Outcome.next.injEq] at h
    subst h
    exact ⟨hf, hi, rfl⟩

/-- Every command ends in a next state: fault entry, or a state that differs in the cipher, memory, `INITED` and `BUSY` only. -/
theorem exec_cases (i : Instr) (s : State) :
    (∃ cause info, exec i s = .next (s.faultEntry cause info)) ∨
    (∃ c m b, exec i s = .next { s with cipher := c, mem := m, inited := b, busy := false }) := by
  cases i with
  | init a b =>
    rcases execInit_cases a b s with ⟨_, e⟩ | ⟨_, _, e⟩ | ⟨_, _, e⟩
    · exact .inl ⟨_, _, e⟩
    · exact .inl ⟨_, _, e⟩
    · exact .inr ⟨_, s.mem, true, e⟩
  | crypt a b c =>
    rcases execCrypt_cases a b c s with ⟨_, e⟩ | ⟨_, _, e⟩ | ⟨_, _, _, e⟩ | ⟨_, _, _, _, e⟩ | ⟨_, _, _, _, e⟩
    · exact .inl ⟨_, _, e⟩
    · exact .inl ⟨_, _, e⟩
    · exact .inl ⟨_, _, e⟩
    · exact .inl ⟨_, _, e⟩
    · exact .inr ⟨_, _, s.inited, e⟩
  | discard c =>
    rcases execDiscard_cases c s with ⟨_, e⟩ | ⟨_, e⟩
    · exact .inl ⟨_, _, e⟩
    · exact .inr ⟨_, s.mem, s.inited, e⟩
  | hchacha20 a b c =>
    rcases execHchacha20_cases a b c s with ⟨_, e⟩ | ⟨_, _, e⟩ | ⟨_, _, _, e⟩ | ⟨_, _, _, e⟩
    · exact .inl ⟨_, _, e⟩
    · exact .inl ⟨_, _, e⟩
    · exact .inl ⟨_, _, e⟩
    · exact .inr ⟨s.cipher, _, s.inited, e⟩

/-! ## Submissions and steps -/

/-- An accepted descriptor that decodes runs its command. -/
theorem hostSubmit_decoded {d : Descriptor} {i : Instr} {s : State} (hf : s.fault = false) (hb : s.busy = false)
    (hd : decode d = .ok i) : hostSubmit d s = exec i s.accept := by
  simp [hostSubmit, hf, hb, runDescriptor, hd]

/-- An accepted descriptor that does not decode enters the fault decoding raises. -/
theorem hostSubmit_rejected {d : Descriptor} {r : Reject} {s : State} (hf : s.fault = false) (hb : s.busy = false)
    (hd : decode d = .error r) : hostSubmit d s = .next (s.accept.faultEntry (rejectCause r) (rejectInfo r)) := by
  simp [hostSubmit, hf, hb, runDescriptor, hd, raise]

/-- A step with an interaction to come is that interaction. -/
theorem step_script {s : State} {x : HostAction} {rest : List HostAction} (h : s.script = x :: rest) :
    step s = interact x { s with script := rest } := by
  simp [step, h]

/-- A step with no interaction to come is idle. -/
theorem step_idle {s : State} (h : s.script = []) : step s = .next s := by
  simp [step, h, idle]

/-- Everything a submission that has a next state can do: the port was ready, and the descriptor was rejected, its command faulted,
or its command completed. -/
theorem hostSubmit_next {d : Descriptor} {s t : State} (h : hostSubmit d s = .next t) :
    s.fault = false ∧ s.busy = false ∧
    ((∃ r, decode d = .error r ∧ t = s.accept.faultEntry (rejectCause r) (rejectInfo r)) ∨
     (∃ i, decode d = .ok i ∧ exec i s.accept = .next t)) := by
  cases hf : s.fault
  · cases hb : s.busy
    · refine ⟨rfl, rfl, ?_⟩
      cases hd : decode d with
      | error r =>
        rw [hostSubmit_rejected hf hb hd] at h
        cases h
        exact .inl ⟨r, rfl, rfl⟩
      | ok i =>
        rw [hostSubmit_decoded hf hb hd] at h
        exact .inr ⟨i, rfl, h⟩
    · simp [hostSubmit, hf, hb] at h
  · simp [hostSubmit, hf] at h

/-- Everything a submission at a ready port can do: fault entry, or its command completes. -/
theorem hostSubmit_cases {d : Descriptor} {s : State} (hf : s.fault = false) (hb : s.busy = false) :
    (∃ cause info, hostSubmit d s = .next (s.accept.faultEntry cause info)) ∨
    (∃ i c m b, decode d = .ok i ∧ hostSubmit d s = exec i s.accept ∧
      exec i s.accept = .next { s.accept with cipher := c, mem := m, inited := b, busy := false }) := by
  cases hd : decode d with
  | error r => exact .inl ⟨_, _, hostSubmit_rejected hf hb hd⟩
  | ok i =>
    rw [hostSubmit_decoded hf hb hd]
    rcases exec_cases i s.accept with h | ⟨c, m, b, h⟩
    · exact .inl h
    · exact .inr ⟨i, c, m, b, rfl, rfl, h⟩

/-- Everything a step that has a next state can do. -/
theorem step_next_cases {s t : State} (h : step s = .next t) :
    (s.script = [] ∧ t = s) ∨
    (∃ d rest, s.script = .submit d :: rest ∧ s.fault = false ∧ s.busy = false ∧
      ((∃ cause info, t = { s with
          script := rest, fault := true, cause := Cause.code cause, info := info, busy := false, cmdIndex := s.cmdIndex + 1 }) ∨
       (∃ i c m b, decode d = .ok i ∧ exec i { s with script := rest, busy := true, cmdIndex := s.cmdIndex + 1 } = .next t ∧
          t = { s with script := rest, busy := false, cmdIndex := s.cmdIndex + 1, cipher := c, mem := m, inited := b }))) ∨
    (∃ i rest, s.script = .readReg i :: rest ∧
      t = { s with script := rest, replies := .reg i (s.readReg i) :: s.replies, draws := s.draws + 1 }) ∨
    (∃ a rest, s.script = .readMem a :: rest ∧ a.toNat < s.memSize ∧
      t = { s with script := rest, replies := .byte a (s.mem.read a.toNat) :: s.replies }) ∨
    (∃ a v rest, s.script = .writeMem a v :: rest ∧ a.toNat < s.memSize ∧
      t = { s with script := rest, mem := s.mem.write a.toNat v }) ∨
    (∃ rest, s.script = .reset :: rest ∧ t = State.hostReset { s with script := rest }) := by
  cases hs : s.script with
  | nil =>
    rw [step_idle hs] at h
    cases h
    exact .inl ⟨rfl, rfl⟩
  | cons x rest =>
    rw [step_script hs] at h
    cases x with
    | submit d =>
      change hostSubmit d { s with script := rest } = .next t at h
      have hn := hostSubmit_next h
      refine .inr (.inl ⟨d, rest, rfl, hn.1, hn.2.1, ?_⟩)
      rcases hostSubmit_cases (d := d) hn.1 hn.2.1 with ⟨cause, info, e⟩ | ⟨i, c, m, b, hd, e, e'⟩
      · rw [e] at h
        cases h
        exact .inl ⟨cause, info, rfl⟩
      · rw [e] at h
        refine .inr ⟨i, c, m, b, hd, h, ?_⟩
        rw [e'] at h
        cases h
        rfl
    | readReg i =>
      cases h
      exact .inr (.inr (.inl ⟨i, rest, rfl, rfl⟩))
    | readMem a =>
      change hostReadMem a { s with script := rest } = .next t at h
      unfold hostReadMem at h
      split at h
      · next ha =>
        cases h
        exact .inr (.inr (.inr (.inl ⟨a, rest, rfl, ha, rfl⟩)))
      · cases h
    | writeMem a v =>
      change hostWriteMem a v { s with script := rest } = .next t at h
      unfold hostWriteMem at h
      split at h
      · next ha =>
        cases h
        exact .inr (.inr (.inr (.inr (.inl ⟨a, v, rest, rfl, ha, rfl⟩))))
      · cases h
    | reset =>
      cases h
      exact .inr (.inr (.inr (.inr (.inr ⟨rest, rfl, rfl⟩))))

end Sys2Proof.Machine
end

