-- ==== Sys2Proof/Laws/Keystream.lean ====
section
/-! SUPPORT. The subkey's length and the words of the matrix INIT builds, stated so that no later proof evaluates the permutation. -/

namespace Sys2Proof.Machine

theorem length_subkeyBytes (x : Matrix) : (subkeyBytes x).length = 32 := rfl

theorem length_hsubkey (key n16 : Bytes) : (hsubkey key n16).length = 32 := length_subkeyBytes _

theorem State.derivedSubkey_eq (s : State) (a b : DWord) :
    s.derivedSubkey a b = hsubkey (s.mem.readBytes a.toNat 32) (s.mem.readBytes b.toNat 16) := by
  unfold State.derivedSubkey State.memRead
  rfl

/-- HCHACHA20 writes 32 bytes. -/
theorem State.length_derivedSubkey (s : State) (a b : DWord) : (s.derivedSubkey a b).length = 32 := by
  rw [State.derivedSubkey_eq, length_hsubkey]

/-- The matrix INIT builds, from a subkey. -/
def streamMatrix (sk tail : Bytes) : Matrix :=
  #v[sigma[0], sigma[1], sigma[2], sigma[3],
     le32 sk 0, le32 sk 1, le32 sk 2, le32 sk 3, le32 sk 4, le32 sk 5, le32 sk 6, le32 sk 7,
     0, 0, le32 tail 0, le32 tail 1]

theorem initMatrix_eq (key nonce : Bytes) :
    initMatrix key nonce = streamMatrix (hsubkey key (nonce.take 16)) (nonce.drop 16) := rfl

theorem initMatrix_sigma (key nonce : Bytes) (i : Fin 4) : (initMatrix key nonce)[i.val] = sigma[i] := by
  rw [initMatrix_eq]
  generalize hsubkey key (nonce.take 16) = sk
  fin_cases i <;> rfl

theorem initMatrix_subkey (key nonce : Bytes) (j : Fin 8) :
    (initMatrix key nonce)[4 + j.val] = le32 (hsubkey key (nonce.take 16)) j := by
  rw [initMatrix_eq]
  generalize hsubkey key (nonce.take 16) = sk
  fin_cases j <;> rfl

theorem initMatrix_counter (key nonce : Bytes) : (initMatrix key nonce)[12] = 0 ∧ (initMatrix key nonce)[13] = 0 := by
  rw [initMatrix_eq]
  generalize hsubkey key (nonce.take 16) = sk
  exact ⟨rfl, rfl⟩

theorem initMatrix_nonce (key nonce : Bytes) (j : Fin 2) : (initMatrix key nonce)[14 + j.val] = le32 (nonce.drop 16) j := by
  rw [initMatrix_eq]
  generalize hsubkey key (nonce.take 16) = sk
  fin_cases j <;> rfl

/-- A stream starts at counter 0. -/
theorem Cipher.ctr_start (key nonce : Bytes) (c : Cipher) : (c.start key nonce).ctr = 0 := by
  have h := initMatrix_counter key nonce
  rw [Cipher.ctr, Cipher.start_st, h.1, h.2]
  rfl

end Sys2Proof.Machine
end

