-- ==== Sys2Proof/Laws/Permutation.lean ====
section
/-! SUPPORT. The quarter-round and the rounds: which words they touch, that disjoint quarter-rounds commute, and an inverse of each
step. -/

namespace Sys2Proof

theorem Quad.ne (q : Quad) : q.a ≠ q.b ∧ q.a ≠ q.c ∧ q.a ≠ q.d ∧ q.b ≠ q.c ∧ q.b ≠ q.d ∧ q.c ≠ q.d := by
  have h := q.distinct
  simp only [List.nodup_cons, List.mem_cons, List.not_mem_nil, or_false, not_or] at h
  tauto

/-- The word indices of a quadruple. -/
def Quad.indices (q : Quad) : List (Fin 16) := [q.a, q.b, q.c, q.d]

end Sys2Proof

namespace Sys2Proof.Machine

section
variable (q : Quad) (x : Matrix)

theorem qr_a : (qr q x)[q.a] = (quarterWords x[q.a] x[q.b] x[q.c] x[q.d]).1 := by
  have h := q.ne
  simp only [Fin.ne_iff_vne] at h
  simp [qr, Ne.symm h.1, Ne.symm h.2.1, Ne.symm h.2.2.1]

theorem qr_b : (qr q x)[q.b] = (quarterWords x[q.a] x[q.b] x[q.c] x[q.d]).2.1 := by
  have h := q.ne
  simp only [Fin.ne_iff_vne] at h
  simp [qr, Ne.symm h.2.2.2.1, Ne.symm h.2.2.2.2.1]

theorem qr_c : (qr q x)[q.c] = (quarterWords x[q.a] x[q.b] x[q.c] x[q.d]).2.2.1 := by
  have h := q.ne
  simp only [Fin.ne_iff_vne] at h
  simp [qr, Ne.symm h.2.2.2.2.2]

theorem qr_d : (qr q x)[q.d] = (quarterWords x[q.a] x[q.b] x[q.c] x[q.d]).2.2.2 := by
  simp [qr]

/-- A quarter-round changes the four words of its quadruple and no other. -/
theorem qr_other {i : Fin 16} (h : i ∉ q.indices) : (qr q x)[i] = x[i] := by
  simp only [Quad.indices, List.mem_cons, List.not_mem_nil, or_false, not_or, Fin.ext_iff] at h
  simp [qr, Ne.symm h.1, Ne.symm h.2.1, Ne.symm h.2.2.1, Ne.symm h.2.2.2]

end

/-- The words of a quarter-round undone. -/
def quarterWordsInv (a b c d : Word) : Word × Word × Word × Word :=
  let b := rotl32 b 25 ^^^ c
  let c := c - d
  let d := rotl32 d 24 ^^^ a
  let a := a - b
  let b := rotl32 b 20 ^^^ c
  let c := c - d
  let d := rotl32 d 16 ^^^ a
  let a := a - b
  (a, b, c, d)

/-- Bit `i` of a rotated word. -/
theorem getLsbD_rotl32 (v : Word) {r i : Nat} (h : r < 32) (hi : i < 32) :
    (rotl32 v r).getLsbD i = v.getLsbD (if i < r then 32 - r + i else i - r) := by
  simp only [rotl32, BitVec.getLsbD_or, BitVec.getLsbD_shiftLeft, BitVec.getLsbD_ushiftRight]
  split
  · next hr => simp [hr]
  · next hr => rw [BitVec.getLsbD_of_ge v (32 - r + i) (by omega)]; simp [hr, hi]

theorem rotl32_rotl32 (v : Word) (r : Nat) (h0 : 0 < r) (h : r < 32) : rotl32 (rotl32 v r) (32 - r) = v := by
  apply BitVec.eq_of_getLsbD_eq
  intro i hi
  rw [getLsbD_rotl32 _ (by omega) hi, getLsbD_rotl32 _ h (by split <;> omega)]
  congr 1
  split <;> split <;> omega

/-- The 25-bit rotation undoes the 7-bit one, and so on: `rotl32_rotl32` at the four amounts of R101. -/
theorem rotl32_undo (v : Word) :
    rotl32 (rotl32 v 16) 16 = v ∧ rotl32 (rotl32 v 12) 20 = v ∧ rotl32 (rotl32 v 8) 24 = v ∧ rotl32 (rotl32 v 7) 25 = v :=
  ⟨rotl32_rotl32 v 16 (by omega) (by omega), rotl32_rotl32 v 12 (by omega) (by omega), rotl32_rotl32 v 8 (by omega) (by omega),
    rotl32_rotl32 v 7 (by omega) (by omega)⟩

theorem rotl32_redo (v : Word) :
    rotl32 (rotl32 v 16) 16 = v ∧ rotl32 (rotl32 v 20) 12 = v ∧ rotl32 (rotl32 v 24) 8 = v ∧ rotl32 (rotl32 v 25) 7 = v :=
  ⟨rotl32_rotl32 v 16 (by omega) (by omega), rotl32_rotl32 v 20 (by omega) (by omega), rotl32_rotl32 v 24 (by omega) (by omega),
    rotl32_rotl32 v 25 (by omega) (by omega)⟩

theorem xor_cancel (v w : Word) : v ^^^ w ^^^ w = v := by
  rw [BitVec.xor_assoc, BitVec.xor_self, BitVec.xor_zero]

theorem quarterWordsInv_quarterWords (a b c d : Word) :
    (fun y : Word × Word × Word × Word => quarterWordsInv y.1 y.2.1 y.2.2.1 y.2.2.2) (quarterWords a b c d) = (a, b, c, d) := by
  simp only [quarterWords, quarterWordsInv, (rotl32_undo _).1, (rotl32_undo _).2.1, (rotl32_undo _).2.2.1, (rotl32_undo _).2.2.2,
    xor_cancel, BitVec.add_sub_cancel]

theorem quarterWords_quarterWordsInv (a b c d : Word) :
    (fun y : Word × Word × Word × Word => quarterWords y.1 y.2.1 y.2.2.1 y.2.2.2) (quarterWordsInv a b c d) = (a, b, c, d) := by
  simp only [quarterWords, quarterWordsInv, BitVec.sub_add_cancel, xor_cancel, (rotl32_redo _).1, (rotl32_redo _).2.1,
    (rotl32_redo _).2.2.1, (rotl32_redo _).2.2.2]

end Sys2Proof.Machine
end

