-- ==== Sys2Proof/Tests/Slice0.lean ====
section
/-! SUPPORT. The model's own tests. Expected values are the spec's (95_test_vectors.md, or the rule named), never the model's answers.
The last part gives, for each obligation with hypotheses, a concrete state and operands that meet them. -/

-- One theorem at a time: a thread for each closed evaluation would take more stack than the memory limit allows.
set_option Elab.async false

namespace Sys2Proof.Tests

open Sys2Proof.Machine

/-! ## Helpers -/

/-- The `n` bytes a hexadecimal numeral writes out, first byte first (the spelling of 95_test_vectors.md). -/
def hexBytes (n v : Nat) : Bytes := (List.range n).map (fun i => BitVec.ofNat 8 (v / 256 ^ (n - 1 - i)))

/-- A descriptor from its four words. -/
def words (d0 d1 d2 d3 : DWord) : Descriptor := { d0 := d0, d1 := d1, d2 := d2, d3 := d3 }

/-- The key and nonce of the standard stream. -/
def standardKey : Bytes := hexBytes 32 0x808182838485868788898a8b8c8d8e8f909192939495969798999a9b9c9d9e9f
def standardNonce : Bytes := hexBytes 24 0x404142434445464748494a4b4c4d4e4f5051525354555658

/-- The state after reset with the memory of the standard stream: the key at 0, the nonce at 0x20. -/
def standard : State := { State.reset with mem := Memory.writeBytes (Memory.writeBytes [] 0 standardKey) 0x20 standardNonce }

/-- `ST` after INIT of the standard stream (V-INIT-1). -/
def vInit1 : Matrix :=
  #v[0x61707865, 0x3320646e, 0x79622d32, 0x6b206574, 0xc0c08a4a, 0xba226229, 0xaa9f95fe, 0x5ba406be,
     0xe4cea389, 0xe3f6fe44, 0xa55976d7, 0x32ee493f, 0x00000000, 0x00000000, 0x53525150, 0x58565554]

/-- The state after INIT of the standard stream, written from V-INIT-1. -/
def started : State := { standard with cipher := { st := vInit1, ks := Vector.replicate 16 0, pos := 64 }, inited := true }

/-- The block of the standard stream at counter 0 (V-BLOCK-1). -/
def vBlock1 : Matrix :=
  #v[0x9ace3111, 0x0dae202a, 0x5c93c867, 0x10fa8977, 0xbbe5c925, 0x6fb90f72, 0xb94f3511, 0x9abdf07a,
     0x6308ecad, 0xc8ca60ba, 0xf8482c58, 0x8ec4df6c, 0x86a446dd, 0x62dec542, 0x7b1cf1cc, 0x7d33bf21]

/-- The standard stream after three bytes: block 0 in use, `CTR = 1`, `pos = 3` (V-DISC). -/
def threeUsed : State := { started with cipher := { st := withCtr 1 vInit1, ks := vBlock1, pos := 3 } }

/-- A faulted state: `CRYPT 0x100, 0x180, 0x100` after INIT (V-FAULT). -/
def faulted : State := { started with fault := true, cause := 0x05, info := 2 }

/-- The host's next interactions. -/
def State.thenHost (l : List HostAction) (s : State) : State := { s with script := l }

/-- The state an outcome ends in, if it is a next state. -/
def nextState (o : Host.Outcome State Fault Refusal) : Option State :=
  match o with
  | .next t => some t
  | .fault _ => none
  | .refused _ => none

/-- What a test reads off an outcome: `f` of the next state. -/
def after {α : Type} (o : Host.Outcome State Fault Refusal) (f : State → α) : Option α := (nextState o).map f

theorem next_of_after {α : Type} {o : Host.Outcome State Fault Refusal} {f : State → α} {v : α} (h : after o f = some v) :
    ∃ t, o = .next t ∧ f t = v := by
  unfold after nextState at h
  split at h
  · simp only [Option.map_some, Option.some.injEq] at h
    exact ⟨_, rfl, h⟩
  · simp at h
  · simp at h

/-- The cursor and the two counter words after a command. -/
def streamRegs (t : State) : Bool × Nat × Nat × Nat := (t.fault, t.cipher.st[12].toNat, t.cipher.st[13].toNat, t.cipher.pos.toNat)

/-- The fault record after a command. -/
def faultRecord (t : State) : Bool × Nat × Nat := (t.fault, t.cause.toNat, t.info.toNat)

/-! ## WellFormed: an ill-formed term for each check -/

theorem test_opcodeAssigned_refuses_zero : (words 0x0 0 0 0).opcodeAssigned = false := by decide
theorem test_opcodeAssigned_refuses_five : (words 0x105 0 0 0).opcodeAssigned = false := by decide
theorem test_reservedZero_refuses : (words 0x102 0 0 0).reservedZero = false := by decide
theorem test_reservedZero_refuses_top_bit :
    (words 0x8000000000000002 0 0 0).reservedZero = false := by decide
theorem test_unusedZero_refuses_init_c : (words 0x1 0 0x20 1).unusedZero = false := by decide
theorem test_unusedZero_refuses_discard_b : (words 0x3 0 1 0).unusedZero = false := by decide
theorem test_wellFormed_refuses : (words 0x3 5 7 0).wellFormed = false := by decide
theorem test_arityOk_refuses : Line.arityOk { mnemonic := .init, operands := [0] } = false := by decide
theorem test_operandsFit_refuses : Line.operandsFit { mnemonic := .skip, operands := [2 ^ 64] } = false := by decide
theorem test_line_wellFormed_refuses : Line.wellFormed { mnemonic := .cryptip, operands := [0, 1, 2] } = false := by decide

/-! ## Decode: words written out from R71, R74 and R82 -/

/-- INIT: OPC 0x01 in bits 7:0 of D0, A = 0x0 in D1, B = 0x20 in D2, D3 = 0. -/
theorem test_decode_init :
    decode (words 0x0000000000000001 0x0000000000000000 0x0000000000000020 0x0000000000000000) =
    .ok (.init 0x0 0x20) := by decide
theorem test_decode_crypt :
    decode (words 0x0000000000000002 0x0000000000000100 0x0000000000000200 0x00000000000000c8) =
    .ok (.crypt 0x100 0x200 200) := by decide
theorem test_decode_discard :
    decode (words 0x0000000000000003 0x0000000000000000 0x0000000000000000 0x0000000000000081) =
    .ok (.discard 129) := by decide
theorem test_decode_hchacha20 :
    decode (words 0x0000000000000004 0x0000000000000000 0x0000000000000020 0x0000000000000040) =
    .ok (.hchacha20 0x0 0x20 0x40) := by decide
/-- Operands are whole 64-bit words: the top bit of each is kept. -/
theorem test_decode_high_operands :
    decode (words 0x2 0x8000000000000001 0xffffffffffffffff 0x8000000000000000) =
    .ok (.crypt 0x8000000000000001 0xffffffffffffffff 0x8000000000000000) := by decide
/-- The opcode is checked before `RSV` (V-FAULT). -/
theorem test_decode_opcode_first : decode (words 0x105 0 0 0) = .error (.illegalOpcode 0x105) := by decide
theorem test_decode_reserved : decode (words 0x102 0 0 0) = .error (.reservedNonzero 0) := by decide
/-- The lowest nonzero operand word is named (V-FAULT). -/
theorem test_decode_lowest_operand : decode (words 0x3 0x5 0x7 0) = .error (.reservedNonzero 1) := by decide
theorem test_decode_init_operand : decode (words 0x1 0 0x20 1) = .error (.reservedNonzero 3) := by decide
/-- The 32 bytes of `INIT 0x0, 0x20` (R82) and of `CRYPT 0x103, 0x203, 129` (P2). -/
theorem test_bytes_init : (encode (.init 0x0 0x20)).toBytes =
    hexBytes 32 0x0100000000000000000000000000000020000000000000000000000000000000 := by decide
theorem test_bytes_crypt : (encode (.crypt 0x103 0x203 129)).toBytes =
    hexBytes 32 0x0200000000000000030100000000000003020000000000008100000000000000 := by decide
theorem test_ofBytes : Descriptor.ofBytes (hexBytes 32 0x0200000000000000030100000000000003020000000000008100000000000000) =
    some (encode (.crypt 0x103 0x203 129)) := by decide
/-- The 256-bit numbering of R71: `OPC` is bits 7:0, `A` bits 127:64, `B` bits 191:128, `C` bits 255:192. -/
theorem test_decodeTableWord : decodeTableWord 256 (2 + 0x100 * 2 ^ 64 + 0x200 * 2 ^ 128 + 200 * 2 ^ 192) =
    some (.crypt 0x100 0x200 200) := by decide

/-! ## The listing syntax (R79, R80) -/

theorem test_text_crypt : assembleText "CRYPT 0x100, 0x200, 200 ; encrypt".toList =
    .ok (some (encode (.crypt 0x100 0x200 200))) := by decide
theorem test_text_case_and_pseudo : assembleText "cryptip 0x100, 200".toList = .ok (some (encode (.crypt 0x100 0x100 200))) := by
  decide
theorem test_text_too_large : assembleText "SKIP 18446744073709551616".toList = .error .operandTooLarge := by decide
theorem test_text_comment : assembleText "; nothing".toList = .ok none := by decide

/-! ## Words, rotations and the permutation (V-ROT, V-QR, V-PERM, V-HCH) -/

/-- V-ROT. -/
theorem test_rotl32 : rotl32 0x12345678 16 = 0x56781234 ∧ rotl32 0x12345678 12 = 0x45678123 ∧
    rotl32 0x12345678 8 = 0x34567812 ∧ rotl32 0x12345678 7 = 0x1a2b3c09 ∧ rotl32 0x80000001 7 = 0x000000c0 := by decide

/-- V-QR: the example of R101, and the row in which every addition wraps. -/
theorem test_quarter_round :
    quarterWords 0x11111111 0x01020304 0x9b8d6f43 0x01234567 = (0xea2a92f4, 0xcb1cf8ce, 0x4581472e, 0x5881c4bb) ∧
    quarterWords 0xffffffff 0xffffffff 0xffffffff 0xffffffff = (0xf0000ffd, 0x88790878, 0x0110fdef, 0x010ffdf0) := by decide

/-- X0 of V-PERM-2. -/
def x0 : Matrix :=
  #v[0x61707865, 0x3320646e, 0x79622d32, 0x6b206574, 0x03020100, 0x07060504, 0x0b0a0908, 0x0f0e0d0c,
     0x13121110, 0x17161514, 0x1b1a1918, 0x1f1e1d1c, 0x09000000, 0x4a000000, 0x00000000, 0x27594131]

/-- V-PERM-3, first row. -/
theorem test_columnRound : columnRound x0 =
    #v[0xbc6aa25c, 0x222a51ea, 0x6db4fbdf, 0x91a8685c, 0xdf42d865, 0x54dcfe98, 0x4e4abd1b, 0xbea9f4bd,
       0x9c46ad47, 0xd8aa5185, 0xdfd450df, 0x6c04a635, 0x0fcf2ec5, 0x5821cc4b, 0x8e7fb35b, 0x19352ba2] := by decide +kernel

/-- V-PERM-3, second row. -/
theorem test_doubleRound : doubleRound x0 =
    #v[0x7bc434f3, 0x6a045b3d, 0xa9b6a717, 0xe97301f1, 0x61ba01e7, 0x8d245f4b, 0x33708154, 0xd31e1023,
       0x3af18a5b, 0xb644b533, 0xfd66db41, 0x51e9ad3a, 0xc424874b, 0x61d36895, 0xe9ff651a, 0x923c81f0] := by decide +kernel

/-- V-PERM-2. -/
theorem test_permute : permute x0 =
    #v[0x423b4182, 0xfe7bb227, 0x50420ed3, 0x737d878a, 0x0aa76448, 0x7954cdf3, 0x846acd37, 0x7b3c58ad,
       0x77e35583, 0x83e77c12, 0xe0076a2d, 0xbc6cd0e5, 0xd5e4f9a0, 0x53a8748a, 0x13c42ec1, 0xdcecd326] := by decide +kernel

/-- The source's own known-answer test (E1). -/
theorem test_hsubkey : hsubkey (hexBytes 32 0x000102030405060708090a0b0c0d0e0f101112131415161718191a1b1c1d1e1f)
    (hexBytes 16 0x000000090000004a0000000031415927) =
    hexBytes 32 0x82413b4227b27bfed30e42508a877d73a0f9e4d58a74a853c12ec41326d3ecdc := by decide +kernel

/-! ## The keystream block and the counter (V-BLOCK, V-CTR) -/

/-- V-BLOCK-1: the words of `KS`, and the counter. -/
theorem test_block : started.cipher.block.ks = vBlock1 ∧ started.cipher.block.st = withCtr 1 vInit1 := by decide +kernel

/-- V-BLOCK-1: KSBYTE(0), KSBYTE(3), KSBYTE(4), KSBYTE(63). -/
theorem test_ksByte : ksByte vBlock1 0 = 0x11 ∧ ksByte vBlock1 3 = 0x9a ∧ ksByte vBlock1 4 = 0x2a ∧ ksByte vBlock1 63 = 0x7d := by
  decide

/-- V-BLOCK-2: the block at the last counter value, and the wrap. -/
theorem test_block_wrap :
    let c := (started.cipher.setCtr 0xffffffffffffffff).block
    c.ks[0] = 0x249fc422 ∧ c.ks[15] = 0xa858971d ∧ c.st[12] = 0 ∧ c.st[13] = 0 := by decide +kernel

/-- V-CTR: carry into the high word, and the row with `k = 0x03ffffffffffffff`. -/
theorem test_incCtr :
    let c := (started.cipher.setCtr 0x00000000ffffffff).incCtr 1
    let d := (started.cipher.setCtr 0x0000000000000005).incCtr 0x03ffffffffffffff
    c.st[12] = 0 ∧ c.st[13] = 1 ∧ d.st[12] = 0x00000004 ∧ d.st[13] = 0x04000000 := by decide

/-! ## Commands, one step each -/

/-- V-INIT-1. -/
theorem test_init : after (exec (.init 0x0 0x20) standard) (fun t => (t.cipher.st, t.cipher.pos, t.inited, t.fault)) =
    some (vInit1, 64, true, false) := by decide +kernel
/-- V-FAULT: `INIT 0x0, 0xfe9` ends at 0x1001. -/
theorem test_init_access : after (exec (.init 0x0 0xfe9) started) faultRecord = some (true, 0x04, 2) := by decide +kernel
/-- V-CRYPT: 65 bytes end at `CTR = 2`, `pos = 1`, and write `ks[0..65)`; its first and last bytes are 0x11 and 0x29 (V-KS). -/
theorem test_crypt : after (exec (.crypt 0x100 0x200 65) started)
    (fun t => (streamRegs t, t.mem.read 0x200, t.mem.read 0x23f, t.mem.read 0x240, t.mem.read 0x241)) =
    some ((false, 2, 0, 1), 0x11, 0x7d, 0x29, 0x00) := by decide +kernel
/-- V-FAULT: `CRYPT 0x100, 0x180, 0x100` overlaps. -/
theorem test_crypt_overlap : after (exec (.crypt 0x100 0x180 0x100) started) faultRecord = some (true, 0x05, 2) := by decide +kernel
/-- V-DISC: 129 bytes after 3, the example of R153. -/
theorem test_discard : after (exec (.discard 129) threeUsed) streamRegs = some (false, 3, 0, 4) := by decide +kernel
/-- V-DISC: the largest length after INIT. -/
theorem test_discard_largest : after (exec (.discard 0xffffffffffffffff) started) streamRegs = some (false, 0, 0x04000000, 63) := by
  decide +kernel
/-- V-HCH: output over the nonce; the subkey of the standard stream. -/
theorem test_hchacha20 : after (exec (.hchacha20 0x0 0x20 0x20) started) (fun t => (t.mem.readBytes 0x20 32, streamRegs t)) =
    some (hexBytes 32 0x4a8ac0c0296222bafe959faabe06a45b89a3cee444fef6e3d77659a53f49ee32, (false, 0, 0, 64)) := by decide +kernel
/-- V-FAULT: the nonce range ends at 0x1001. -/
theorem test_hchacha20_access : after (exec (.hchacha20 0x0 0xff1 0x0) started) faultRecord = some (true, 0x04, 2) := by
  decide +kernel

/-! ## Steps -/

/-- P5, command 0: a CRYPT before INIT; STATUS, FAULT_CAUSE, FAULT_INFO and the command index after it. -/
theorem test_step_fault : after (step (State.thenHost [.submit (encode (.crypt 0x100 0x200 16))] standard))
    (fun t => (t.readReg 0, t.readReg 1, t.readReg 2, t.cmdIndex)) = some (0x2, 0x3, 0x0, 1) := by decide +kernel
/-- P5, command 1: no SUBMIT is accepted in a faulted state. -/
theorem test_step_halted : step (State.thenHost [.submit (encode (.init 0x0 0x20))] faulted) = .fault .haltedByFault := rfl
/-- V-REG: STATUS, CTR and POS after V-INIT-1, and the reserved indices. -/
theorem test_readReg : started.readReg 0x00 = 0x1 ∧ started.readReg 0x03 = 0x0 ∧ started.readReg 0x04 = 0x40 ∧
    started.readReg 0x05 = 0 ∧ started.readReg 0xff = 0 := by decide
/-- V-REG: after reset from a fault. -/
theorem test_step_reset : after (step (State.thenHost [.reset] faulted))
    (fun t => (t.readReg 0, t.readReg 1, t.readReg 2, t.inited, t.mem.read 0x20)) = some (0, 0, 0, false, 0x40) := by decide +kernel
/-- The step of the host's opcode-table word runs that command. -/
theorem test_withFetchWord : after (step (State.withFetchWord standard 256 (3 + 129 * 2 ^ 192))) faultRecord = some (true, 0x03, 0) := by
  decide +kernel

/-! ## Witnesses: for each obligation with hypotheses, a state and operands that meet them, and boundary values of its clauses -/

/-- `standard` with a host script. -/
def hosted (l : List HostAction) : State := State.thenHost l standard

/-- `started` with a host script. -/
def startedHosted (l : List HostAction) : State := State.thenHost l started

/-- A command completes from a state, as a test can evaluate it. -/
theorem completes_of {i : Instr} {s : State} (h : after (hostSubmit (encode i) s) (·.fault) = some false) :
    ∃ t, completes i s t := next_of_after h

/-- The descriptors of each kind of rejection: an unassigned opcode, `RSV`, INIT's `C`, DISCARD's `A`, DISCARD's `B`. -/
theorem witness_DecodeRejectsByFirstStep :
    (words 0x105 0 0 0).opcodeAssigned = false ∧ (words 0xff 0 0 0).opcodeAssigned = false ∧
    ((words 0x102 0 0 0).opcodeAssigned = true ∧ (words 0x102 0 0 0).reservedZero = false) ∧
    ((words 1 0 0 1).opcodeAssigned = true ∧ (words 1 0 0 1).reservedZero = true ∧ (words 1 0 0 1).unusedZero = false) ∧
    ((words 3 5 7 0).opcodeAssigned = true ∧ (words 3 5 7 0).reservedZero = true ∧ (words 3 5 7 0).unusedZero = false) ∧
    ((words 3 0 7 0).opcodeAssigned = true ∧ (words 3 0 7 0).reservedZero = true ∧ (words 3 0 7 0).unusedZero = false) := by
  decide

theorem witness_DescriptorBitLayout : (0 : Nat) < 256 ∧ (255 : Nat) < 256 := by decide

theorem witness_DescriptorByteForm : (0 : Nat) < 8 ∧ (7 : Nat) < 8 := by decide

theorem witness_ListingLinesAssemble :
    (∃ n ∈ (Line.mk .skip [2 ^ 64]).operands, 2 ^ 64 ≤ n) ∧ (∃ n ∈ (Line.mk .init [0, 2 ^ 64]).operands, 2 ^ 64 ≤ n) :=
  ⟨⟨2 ^ 64, by simp, Nat.le_refl _⟩, ⟨2 ^ 64, by simp, Nat.le_refl _⟩⟩

theorem witness_StepRunsDecodedCommand :
    (hosted [.submit (words 3 0 0 129)]).script = [.submit (words 3 0 0 129)] ∧ (hosted [.submit (words 3 0 0 129)]).fault = false ∧
    (hosted [.submit (words 3 0 0 129)]).busy = false ∧ decode (words 3 0 0 129) = .ok (.discard 129) := by decide

/-- One that completes and one that faults. -/
theorem witness_SubmitEndsInOneOfTwoOutcomes :
    (∃ t, step (startedHosted [.submit (words 3 0 0 129)]) = .next t ∧ t.fault = false) ∧
    (∃ t, step (startedHosted [.submit (words 3 1 0 129)]) = .next t ∧ t.fault = true) :=
  ⟨next_of_after (by decide +kernel), next_of_after (by decide +kernel)⟩

/-- A step with each kind of interaction, and with none. -/
theorem witness_CommandIndexCountsAcceptedCommands :
    (∃ t, step (hosted []) = .next t ∧ t.cmdIndex = 0) ∧
    (∃ t, step (hosted [.submit (words 0 0 0 0)]) = .next t ∧ t.cmdIndex = 1) ∧
    (∃ t, step (hosted [.reset]) = .next t ∧ t.cmdIndex = 0) ∧
    (∃ t, step (hosted [.readReg 0]) = .next t ∧ t.cmdIndex = 0) ∧
    (∃ t, step (hosted [.readMem 0xfff]) = .next t ∧ t.cmdIndex = 0) ∧
    (∃ t, step (hosted [.writeMem 0xfff 1]) = .next t ∧ t.cmdIndex = 0) :=
  ⟨⟨_, rfl, rfl⟩, ⟨_, rfl, rfl⟩, ⟨_, rfl, rfl⟩, ⟨_, rfl, rfl⟩, next_of_after (by decide +kernel), next_of_after (by decide +kernel)⟩

theorem witness_ReadRegChangesNoState : (State.thenHost [.readReg 0x03] faulted).script = [.readReg 0x03] := rfl

theorem witness_StatusRegisterLayout : started.inited = true ∧ (3 : Nat) ≤ 63 ∧ (7 : Nat) ≤ 63 ∧ 5 ≤ (0x05 : BitVec 8).toNat ∧
    5 ≤ (0xff : BitVec 8).toNat := by decide

/-- The first and the last byte of buffer memory, and the first address beyond it. -/
theorem witness_HostMemoryIsPlainStorage :
    standard.mem.wf ∧ (hosted [.writeMem 0x0 1]).script = [.writeMem 0x0 1] ∧ (0x0 : DWord).toNat < standard.memSize ∧
    (0xfff : DWord).toNat < standard.memSize ∧ standard.memSize ≤ (0x1000 : DWord).toNat := by decide +kernel

theorem witness_ResetClearsStatusAndKeepsMemory : (State.thenHost [.reset] faulted).script = [.reset] := rfl

/-- A descriptor for each row of `faultChecks` (V-FAULT), in order, and one for which every check passes. -/
theorem witness_SubmitReportsFirstFailingCheck :
    firstFailure (words 0x105 0 0 0) started = some (.illegalOpcode, 0x105) ∧
    firstFailure (words 0x102 0 0 0) started = some (.reservedNonzero, 0) ∧
    firstFailure (words 3 5 7 0) started = some (.reservedNonzero, 1) ∧
    firstFailure (words 3 0 1 0) standard = some (.reservedNonzero, 2) ∧
    firstFailure (words 1 0x1000 0x20 1) started = some (.reservedNonzero, 3) ∧
    firstFailure (words 2 0x1000 0x200 1) standard = some (.notInitialized, 0) ∧
    firstFailure (words 1 0xfe1 0xfe9 0) started = some (.access, 1) ∧
    firstFailure (words 1 0xfe0 0xfe9 0) started = some (.access, 2) ∧
    firstFailure (words 2 0xf00 0x100 0x101) started = some (.access, 1) ∧
    firstFailure (words 2 0x100 0xf00 0x101) started = some (.access, 2) ∧
    firstFailure (words 4 0xfe1 0x20 0) started = some (.access, 1) ∧
    firstFailure (words 4 0 0xff1 0) started = some (.access, 2) ∧
    firstFailure (words 4 0 0x20 0xfe1) started = some (.access, 3) ∧
    firstFailure (words 2 0x100 0x200 0x140) started = some (.overlap, 2) ∧
    firstFailure (words 2 0x100 0x200 0x100) started = none ∧
    started.fault = false ∧ started.busy = false := by decide +kernel

theorem witness_FaultsArePrecise :
    ∃ t, step (startedHosted [.submit (words 2 0x100 0x180 0x100)]) = .next t ∧ t.fault = true := next_of_after (by decide +kernel)

theorem witness_FaultIsStickyUntilReset :
    faulted.fault = true ∧ (∃ t, step (State.thenHost [.writeMem 0 1] faulted) = .next t ∧ t.fault = true) ∧
    (State.thenHost [.submit (words 1 0 0x20 0)] faulted).script = [.submit (words 1 0 0x20 0)] ∧
    (State.thenHost [.readReg 1] faulted).script = [.readReg 1] ∧ (State.thenHost [.reset] faulted).script = [.reset] :=
  ⟨rfl, next_of_after (by decide +kernel), rfl, rfl, rfl⟩

/-- A step that changes the fault record, a RESET, and a SUBMIT in a faulted state. -/
theorem witness_FaultRecordWrittenOnlyByFaultEntryAndReset :
    (∃ t, step (startedHosted [.submit (words 0 0 0 0)]) = .next t ∧ t.fault = true) ∧
    (∃ t, step (State.thenHost [.reset] faulted) = .next t ∧ t.fault = false) ∧
    faulted.fault = true ∧ (State.thenHost [.submit (words 3 0 0 0)] faulted).script = [.submit (words 3 0 0 0)] :=
  ⟨next_of_after (by decide +kernel), ⟨_, rfl, rfl⟩, rfl, rfl⟩

/-- An INIT that completes from `INITED = 0`, a RESET, and a CRYPT and a DISCARD while `INITED = 0`. -/
theorem witness_InitedWrittenOnlyByInitAndReset :
    (∃ t, step (hosted [.submit (encode (.init 0x0 0x20))]) = .next t ∧ (t.fault, t.inited) = (false, true)) ∧
    decode (encode (.init 0x0 0x20)) = .ok (.init 0x0 0x20) ∧ standard.inited = false ∧
    (∃ t, step (startedHosted [.reset]) = .next t ∧ t.inited = false) ∧
    (∃ t, step (hosted [.submit (words 2 0 0 0)]) = .next t ∧ t.fault = true) ∧
    (∃ t, step (hosted [.submit (words 3 0 0 0)]) = .next t ∧ t.fault = true) :=
  ⟨next_of_after (by decide +kernel), by decide, rfl, ⟨_, rfl, rfl⟩, next_of_after (by decide +kernel),
    next_of_after (by decide +kernel)⟩

/-- `OPC` 0x00, 0x05 and 0xFF. -/
theorem witness_UnassignedOpcodeFaults :
    (hosted [.submit (words 0 0 0 0)]).script = [.submit (words 0 0 0 0)] ∧ standard.fault = false ∧ standard.busy = false ∧
    opcodeValue (words 0 0 0 0) = 0 ∧ 5 ≤ opcodeValue (words 0x105 0 0 0) ∧ 5 ≤ opcodeValue (words 0xff 0 0 0) := by decide

/-- The first and last opcode with `RSV` set, and each operand that must be 0. -/
theorem witness_ReservedNonzeroFaults :
    (hosted [.submit (words 0x102 0 0 0)]).script = [.submit (words 0x102 0 0 0)] ∧ standard.fault = false ∧ standard.busy = false ∧
    (1 ≤ opcodeValue (words 0x101 0 0 0) ∧ (words 0x101 0 0 0).d0.toNat / 256 ≠ 0) ∧
    (opcodeValue (words 0x8000000000000004 0 0 0) ≤ 4 ∧ (words 0x8000000000000004 0 0 0).d0.toNat / 256 ≠ 0) ∧
    ((words 1 0 0 1).d0.toNat / 256 = 0 ∧ opcodeValue (words 1 0 0 1) = 1 ∧ (words 1 0 0 1).d3 ≠ 0) ∧
    ((words 3 5 7 0).d0.toNat / 256 = 0 ∧ opcodeValue (words 3 5 7 0) = 3 ∧ (words 3 5 7 0).d1 ≠ 0) ∧
    ((words 3 0 7 0).d0.toNat / 256 = 0 ∧ opcodeValue (words 3 0 7 0) = 3 ∧ (words 3 0 7 0).d1 = 0 ∧ (words 3 0 7 0).d2 ≠ 0) := by
  decide

theorem witness_NotInitializedFaults :
    standard.inited = false ∧ standard.fault = false ∧
    (∃ t, exec (.init 0x0 0xfe9) standard = .next t ∧ t.fault = true) ∧
    (∃ t, exec (.hchacha20 0x0 0x20 0xfe1) standard = .next t ∧ t.fault = true) :=
  ⟨rfl, rfl, next_of_after (by decide +kernel), next_of_after (by decide +kernel)⟩

/-- Each clause at the last address admitted and the first that is not. -/
theorem witness_AccessFaults :
    started.inited = true ∧ ¬ started.fits 0xfe1 32 ∧ started.fits 0xfe0 32 ∧ ¬ started.fits 0xfe9 24 ∧ started.fits 0xfe8 24 ∧
    ¬ started.fits 0xf00 (0x101 : DWord).toNat ∧ started.fits 0xf00 (0x100 : DWord).toNat ∧
    ¬ started.fits 0xff1 16 ∧ started.fits 0xff0 16 ∧ started.fits 0xffffffffffffffff (0 : DWord).toNat ∧
    ¬ started.fits 0xffffffffffffffff (1 : DWord).toNat := by decide

/-- An overlap by one byte from either side; adjacent ranges are none. -/
theorem witness_OverlapFaults :
    started.inited = true ∧ started.fits 0x100 (0x101 : DWord).toNat ∧ started.fits 0x200 (0x101 : DWord).toNat ∧
    partlyOverlap 0x100 0x200 (0x101 : DWord).toNat ∧ partlyOverlap 0x200 0x100 (0x101 : DWord).toNat ∧
    ¬ partlyOverlap 0x100 0x200 (0x100 : DWord).toNat := by decide

theorem witness_CounterIsTwoMatrixWords : (0 : Fin 16) ≠ 12 ∧ (0 : Fin 16) ≠ 13 ∧ (11 : Fin 16) ≠ 12 ∧ (14 : Fin 16) ≠ 13 := by decide

theorem witness_IncCtrAddsModuloTwoPow64 : (0 : Fin 16) ≠ 12 ∧ (0 : Fin 16) ≠ 13 ∧ (15 : Fin 16) ≠ 12 ∧ (15 : Fin 16) ≠ 13 := by
  decide

theorem witness_KeystreamBlockBytes : (0 : Nat) < 64 ∧ (63 : Nat) < 64 := by decide

theorem witness_WordsAreLittleEndian : (0 : Nat) < 4 ∧ (3 : Nat) < 4 := by decide

/-- A word outside a quadruple, and a matrix whose quadruple is all zero while another word is not. -/
theorem witness_QuarterRoundIsTheInPlaceSteps :
    ((1 : Fin 16) ≠ col0.a ∧ (1 : Fin 16) ≠ col0.b ∧ (1 : Fin 16) ≠ col0.c ∧ (1 : Fin 16) ≠ col0.d) ∧
    (let x : Matrix := (Vector.replicate 16 0).set 1 7
     x[col0.a] = 0 ∧ x[col0.b] = 0 ∧ x[col0.c] = 0 ∧ x[col0.d] = 0 ∧ x[1] = 7) := by decide

/-- An order other than the one the rounds are written in. -/
theorem witness_RoundsDoNotDependOnQuadrupleOrder :
    [col3, col1, col0, col2].Perm [col0, col1, col2, col3] ∧ [diag3, diag1, diag0, diag2].Perm [diag0, diag1, diag2, diag3] := by
  decide

theorem witness_SubkeyIsEightPermutedWords :
    let key := hexBytes 32 0x000102030405060708090a0b0c0d0e0f101112131415161718191a1b1c1d1e1f
    let n16 := hexBytes 16 0x000000090000004a0000000031415927
    x0[0] = 0x61707865 ∧ x0[1] = 0x3320646e ∧ x0[2] = 0x79622d32 ∧ x0[3] = 0x6b206574 ∧
    (∀ j : Fin 8, x0[4 + j.val] = le32 key j) ∧ (∀ j : Fin 4, x0[12 + j.val] = le32 n16 j) := by decide +kernel

/-- The last addresses admitted, with output over the nonce. -/
theorem witness_HchachaWritesSubkey :
    standard.mem.wf ∧ standard.fits 0x0 32 ∧ standard.fits 0x20 16 ∧ standard.fits 0x20 32 ∧ standard.fits 0xfe0 32 ∧
    standard.fits 0xff0 16 := by decide +kernel

theorem witness_HchachaDependsOnInputBytesOnly :
    standard.mem.wf ∧ threeUsed.mem.wf ∧ standard.mem.readBytes (0x0 : DWord).toNat 32 = threeUsed.mem.readBytes (0x0 : DWord).toNat 32 ∧
    standard.mem.readBytes (0x20 : DWord).toNat 16 = threeUsed.mem.readBytes (0x20 : DWord).toNat 16 ∧ standard.fault = false ∧
    threeUsed.fault = false ∧ (∃ t, exec (.hchacha20 0x0 0x20 0x40) standard = .next t ∧ t.fault = false) ∧
    (∃ t, exec (.hchacha20 0x0 0x20 0x80) threeUsed = .next t ∧ t.fault = false) :=
  ⟨by decide +kernel, by decide +kernel, by decide +kernel, by decide +kernel, rfl, rfl, next_of_after (by decide +kernel),
    next_of_after (by decide +kernel)⟩

theorem witness_InitBuildsFreshStream :
    standard.fits 0x0 32 ∧ standard.fits 0x20 24 ∧ standard.fits 0xfe0 32 ∧ standard.fits 0xfe8 24 := by decide

theorem witness_BlockAddsOriginalMatrix :
    started.cipher.st = ({ st := vInit1, ks := vBlock1, pos := 3 } : Cipher).st ∧ (0 : Fin 16) ≠ 12 ∧ (15 : Fin 16) ≠ 13 := by
  decide

/-- Disjoint, adjacent, in place, and empty at any address. -/
theorem witness_CryptWritesInputXorKeystream :
    started.mem.wf ∧ started.inited = true ∧ started.fits 0x100 (200 : DWord).toNat ∧ started.fits 0x200 (200 : DWord).toNat ∧
    sameOrDisjoint 0x100 0x200 (200 : DWord).toNat ∧ sameOrDisjoint 0x100 0x200 (0x100 : DWord).toNat ∧
    sameOrDisjoint 0x200 0x100 (0x100 : DWord).toNat ∧ sameOrDisjoint 0x100 0x100 (200 : DWord).toNat ∧
    sameOrDisjoint 0x100 0x180 (0 : DWord).toNat ∧ started.fits 0xffffffffffffffff (0 : DWord).toNat := by decide +kernel

/-- An exhausted block, and one in use at the first and the last byte. -/
theorem witness_StreamByteRegeneratesLazily :
    started.cipher.pos.toNat ≤ 64 ∧ started.cipher.pos = 64 ∧ threeUsed.cipher.pos.toNat ≤ 64 ∧ threeUsed.cipher.pos ≠ 64 := by decide

/-- Within the block, exactly its rest, and beyond it with and without a remainder. -/
theorem witness_DiscardSeeks :
    threeUsed.inited = true ∧ threeUsed.cipher.pos.toNat ≤ 64 ∧ (61 : DWord).toNat ≤ 64 - threeUsed.cipher.pos.toNat ∧
    (125 : DWord).toNat = (64 - threeUsed.cipher.pos.toNat) + 64 ∧ (62 : DWord).toNat = (64 - threeUsed.cipher.pos.toNat) + 1 := by
  decide

theorem witness_CounterCountsBlocks :
    threeUsed.fault = false ∧ threeUsed.cipher.pos.toNat ≤ 64 ∧
    (∃ t, exec (.init 0x0 0x20) threeUsed = .next t ∧ t.fault = false) ∧
    (∃ t, exec (.hchacha20 0x0 0x20 0x40) threeUsed = .next t ∧ t.fault = false) ∧
    (∃ t, exec (.crypt 0x100 0x200 62) threeUsed = .next t ∧ t.fault = false) ∧
    (∃ t, exec (.discard 129) threeUsed = .next t ∧ t.fault = false) :=
  ⟨rfl, by decide, next_of_after (by decide +kernel), next_of_after (by decide +kernel), next_of_after (by decide +kernel),
    next_of_after (by decide +kernel)⟩

/-- A CRYPT that regenerates: a step that changes `ST` and is no INIT. -/
theorem witness_MatrixWordsFixedBetweenInits :
    (∃ t, step (startedHosted [.submit (encode (.crypt 0x100 0x200 1))]) = .next t ∧ t.cipher.st[12] = 1) ∧
    started.cipher.st[12] = 0 ∧ decode (encode (.crypt 0x100 0x200 1)) = .ok (.crypt 0x100 0x200 1) :=
  ⟨next_of_after (by decide +kernel), by decide, by decide⟩

/-- The DISCARD is of no more than the block in use, and beyond it. -/
theorem witness_DiscardMatchesCrypt :
    threeUsed.fault = false ∧ threeUsed.inited = true ∧ threeUsed.cipher.pos.toNat ≤ 64 ∧
    (∃ t, exec (.crypt 0x100 0x200 62) threeUsed = .next t ∧ (t.fault, t.cipher.pos) = (false, 1)) ∧
    (∃ u, exec (.discard 62) threeUsed = .next u ∧ u.cipher.pos = 1) ∧
    (∃ t, exec (.crypt 0x100 0x200 61) threeUsed = .next t ∧ (t.fault, t.cipher.pos) = (false, 64)) ∧
    (∃ u, exec (.discard 61) threeUsed = .next u ∧ u.cipher.pos = 64) :=
  ⟨rfl, rfl, by decide, next_of_after (by decide +kernel), next_of_after (by decide +kernel), next_of_after (by decide +kernel),
    next_of_after (by decide +kernel)⟩

/-- A run of host interactions after an INIT: a seek, a host write, a CRYPT, a read of POS, a command that faults. -/
def someRun : List HostAction :=
  [.submit (encode (.discard 63)), .writeMem 0x100 7, .submit (encode (.crypt 0x100 0x200 2)), .readReg 0x04,
   .submit (words 0 0 0 0)]

theorem someRun_keepsStream : ∀ x ∈ someRun, x.keepsStream := by
  intro x hx
  simp only [someRun, List.mem_cons, List.not_mem_nil, or_false] at hx
  rcases hx with rfl | rfl | rfl | rfl | rfl
  · intro a b h
    have hd : decode (encode (.discard 63)) = .ok (.discard 63) := by decide
    rw [hd] at h
    cases h
  · trivial
  · intro a b h
    have hd : decode (encode (.crypt 0x100 0x200 2)) = .ok (.crypt 0x100 0x200 2) := by decide
    rw [hd] at h
    cases h
  · trivial
  · intro a b h
    have hd : decode (words 0 0 0 0) = .error (.illegalOpcode 0) := by decide
    rw [hd] at h
    cases h

/-- The run from a state, if every interaction has a next state. -/
theorem run_of {l : List HostAction} {s : State} {p : Nat} (h : (runHost l s 0).map (fun q => q.2) = some p) :
    ∃ t, runHost l s 0 = some (t, p) := by
  cases hr : runHost l s 0 with
  | none => rw [hr] at h; cases h
  | some q =>
    rw [hr] at h
    simp only [Option.map_some, Option.some.injEq] at h
    exact ⟨q.1, by rw [← h]⟩

/-- A submission whose next state is known completes. -/
theorem completes_to {i : Instr} {s t : State} (h : nextState (hostSubmit (encode i) s) = some t) (hf : t.fault = false) :
    completes i s t := by
  unfold nextState at h
  split at h
  · next u hu =>
    cases h
    exact ⟨hu, hf⟩
  · cases h
  · cases h

/-- INIT of the standard stream as the first command after reset. -/
theorem standard_init : completes (.init 0x0 0x20) standard { started with cmdIndex := 1 } := completes_to (by decide +kernel) rfl

theorem witness_StreamPositionInvariant :
    ∃ u t, completes (.init 0x0 0x20) standard u ∧ (∀ x ∈ someRun, x.keepsStream) ∧ runHost someRun u 0 = some (t, 65) ∧
      (65 + 63) / 64 < 2 ^ 64 := by
  obtain ⟨t, ht⟩ := run_of (l := someRun) (s := { started with cmdIndex := 1 }) (p := 65) (by decide +kernel)
  exact ⟨_, t, standard_init, someRun_keepsStream, ht, by decide⟩

/-- Both clauses of the position at their boundary: the last byte of a block, and the block exhausted by it; and an INIT that
faults. -/
theorem witness_StreamPositionKeptByEveryStep :
    (∃ t, step (hosted [.submit (encode (.init 0x0 0x20))]) = .next t ∧ t.fault = false) ∧
    (State.thenHost [] threeUsed).StreamAt vInit1 3 ∧ (State.thenHost [] started).StreamAt vInit1 0 ∧
    (∃ t, step (State.thenHost [.submit (encode (.crypt 0x100 0x200 61))] threeUsed) = .next t ∧
      HostAction.positionAfter t 3 (.submit (encode (.crypt 0x100 0x200 61))) = 64) ∧
    HostAction.submit (encode (.crypt 0x100 0x200 61)) ≠ .reset ∧
    (∀ a b, HostAction.submit (encode (.crypt 0x100 0x200 61)) ≠ .submit (encode (.init a b))) ∧ (64 + 63) / 64 < 2 ^ 64 ∧
    (∃ t, step (State.thenHost [.submit (encode (.init 0xff0 0x20))] threeUsed) = .next t ∧ t.fault = true) := by
  refine ⟨?_, ⟨rfl, by decide, by decide, by decide, ?_⟩, ⟨rfl, by decide, by decide, by decide, by decide⟩, ?_, by decide, ?_,
    by decide, ?_⟩
  · exact next_of_after (by decide +kernel)
  · intro _
    exact ⟨by decide, by decide, by decide +kernel⟩
  · exact next_of_after (by decide +kernel)
  · intro a b h
    have hd : (0x02 : DWord) = 0x01 := congrArg Descriptor.d0 (HostAction.submit.inj h)
    exact absurd hd (by decide)
  · exact next_of_after (by decide +kernel)

/-- As above, with a run that ends without a fault and a CRYPT after it. -/
theorem witness_CryptOutputIsStreamFunction :
    standard.mem.wf ∧ ∃ u t v, completes (.init 0x0 0x20) standard u ∧ (∀ x ∈ someRun.take 4, x.keepsStream) ∧
      runHost (someRun.take 4) u 0 = some (t, 65) ∧ completes (.crypt 0x100 0x200 3) t v := by
  refine ⟨by decide +kernel, ?_⟩
  have hk : (runHost (someRun.take 4) { started with cmdIndex := 1 } 0).map
      (fun q => (q.2, after (hostSubmit (encode (.crypt 0x100 0x200 3)) q.1) (·.fault))) = some (65, some false) := by
    decide +kernel
  cases hr : runHost (someRun.take 4) { started with cmdIndex := 1 } 0 with
  | none => rw [hr] at hk; cases hk
  | some q =>
    rw [hr] at hk
    simp only [Option.map_some, Option.some.injEq, Prod.mk.injEq] at hk
    obtain ⟨v, hv⟩ := completes_of hk.2
    exact ⟨_, q.1, v, standard_init, fun x hx => someRun_keepsStream x (List.mem_of_mem_take hx), by rw [hr, ← hk.1], hv⟩

/-- V-INV, with the ciphertext in the memory of a second machine: `00 01 02 03` at 0x100 became `11 30 cc 99`. -/
theorem witness_CryptIsSelfInverse :
    let s := { standard with mem := standard.mem.writeBytes 0x100 [0x00, 0x01, 0x02, 0x03] }
    let u := { standard with mem := standard.mem.writeBytes 0x200 [0x11, 0x30, 0xcc, 0x99] }
    let s0 := { started with mem := s.mem, cmdIndex := 1 }
    let u0 := { started with mem := u.mem, cmdIndex := 1 }
    s.mem.wf ∧ u.mem.wf ∧ completes (.init 0x0 0x20) s s0 ∧ runHost [] s0 0 = some (s0, 0) ∧
    completes (.init 0x0 0x20) u u0 ∧ u.memRead 0x0 32 = s.memRead 0x0 32 ∧ u.memRead 0x20 24 = s.memRead 0x20 24 ∧
    runHost [.writeMem 0x300 0] u0 0 = some (u0, 0) ∧
    (∃ s2, completes (.crypt 0x100 0x200 4) s0 s2 ∧ u0.memRead 0x200 (4 : DWord).toNat = s2.memRead 0x200 (4 : DWord).toNat) ∧
    (∃ u2, completes (.crypt 0x200 0x300 4) u0 u2) := by
  refine ⟨by decide +kernel, by decide +kernel, completes_to (by decide +kernel) rfl, rfl, completes_to (by decide +kernel) rfl,
    by decide +kernel, by decide +kernel, by decide +kernel, ?_, completes_of (by decide +kernel)⟩
  obtain ⟨t, ht, hv⟩ := next_of_after (v := (false, [0x11, 0x30, 0xcc, 0x99]))
    (o := hostSubmit (encode (.crypt 0x100 0x200 4))
      { started with mem := standard.mem.writeBytes 0x100 [0x00, 0x01, 0x02, 0x03], cmdIndex := 1 })
    (f := fun t => (t.fault, t.memRead 0x200 (4 : DWord).toNat)) (by decide +kernel)
  rw [Prod.mk.injEq] at hv
  exact ⟨t, ⟨ht, hv.1⟩, by rw [hv.2]; decide +kernel⟩

/-- E4: 3 bytes and then 129, disjoint, in one command; and an in-place one that ends with memory. -/
theorem witness_CryptChunksCompose :
    (3 : DWord).toNat + (129 : DWord).toNat < 2 ^ 64 ∧ started.memSize ≤ 2 ^ 64 ∧ started.fault = false ∧
    (∃ t, exec (.crypt 0x100 0x200 (3 + 129)) started = .next t ∧ t.fault = false) ∧
    (∃ t, exec (.crypt 0xffe 0xffe (1 + 1)) started = .next t ∧ t.fault = false) :=
  ⟨by decide, by decide, rfl, next_of_after (by decide +kernel), next_of_after (by decide +kernel)⟩

/-- Every command has a next state. -/
theorem exec_next (i : Instr) (s : State) : ∃ t, exec i s = .next t := by
  rcases exec_cases i s with ⟨_, _, h⟩ | ⟨_, _, _, h⟩ <;> exact ⟨_, h⟩

/-- The rest of a block and then more; and two lengths whose sum is the largest. -/
theorem witness_DiscardsAdd :
    (61 : DWord).toNat + (129 : DWord).toNat < 2 ^ 64 ∧ (0xfffffffffffffffe : DWord).toNat + (1 : DWord).toNat < 2 ^ 64 ∧
    threeUsed.inited = true ∧ threeUsed.cipher.pos.toNat ≤ 64 ∧
    (∃ t u v, exec (.discard 61) threeUsed = .next t ∧ exec (.discard 129) t = .next u ∧
      exec (.discard (61 + 129)) threeUsed = .next v) := by
  obtain ⟨t, ht⟩ := exec_next (.discard 61) threeUsed
  obtain ⟨u, hu⟩ := exec_next (.discard 129) t
  obtain ⟨v, hv⟩ := exec_next (.discard (61 + 129)) threeUsed
  exact ⟨by decide, by decide, rfl, by decide, t, u, v, ht, hu, hv⟩

/-- A block in use, and an exhausted one. -/
theorem witness_KeystreamRepeatsAfterWrap :
    (1 ≤ threeUsed.cipher.pos.toNat ∧ threeUsed.cipher.pos.toNat < 64 ∧
      threeUsed.cipher.ks = blockFn threeUsed.cipher.st (threeUsed.cipher.ctr - 1)) ∧
    (1 ≤ started.cipher.pos.toNat ∧ started.cipher.pos.toNat ≤ 64 ∧ ¬ started.cipher.pos.toNat < 64) := by decide +kernel

theorem witness_LengthZeroAndWrapAreNoFaults :
    threeUsed.inited = true ∧ threeUsed.fault = false ∧ threeUsed.fits 0xfe0 32 ∧ threeUsed.fits 0xfe8 24 ∧
    (started.cipher.setCtr 0xffffffffffffffff).ctr.toNat = 2 ^ 64 - 1 := by decide

/-- One that completes and one that faults. -/
theorem witness_InitFrame :
    threeUsed.fault = false ∧ (∃ t, exec (.init 0x0 0x20) threeUsed = .next t ∧ t.fault = false) ∧
    (∃ t, exec (.init 0xfe1 0x20) threeUsed = .next t ∧ t.fault = true) :=
  ⟨rfl, next_of_after (by decide +kernel), next_of_after (by decide +kernel)⟩

theorem witness_HchachaFrame :
    threeUsed.fault = false ∧ (∃ t, exec (.hchacha20 0x0 0x20 0x20) threeUsed = .next t ∧ t.fault = false) ∧
    (∃ t, exec (.hchacha20 0x0 0x20 0xfe1) threeUsed = .next t ∧ t.fault = true) ∧ outside 0x1f 0x20 32 ∧ outside 0x40 0x20 32 :=
  ⟨rfl, next_of_after (by decide +kernel), next_of_after (by decide +kernel), by decide, by decide⟩

theorem witness_CryptFrame :
    threeUsed.fault = false ∧ (∃ t, exec (.crypt 0x100 0x200 62) threeUsed = .next t ∧ t.fault = false) ∧
    (∃ t, exec (.crypt 0x100 0x101 2) threeUsed = .next t ∧ t.fault = true) ∧ outside 0x1ff 0x200 (62 : DWord).toNat ∧
    outside 0x23e 0x200 (62 : DWord).toNat :=
  ⟨rfl, next_of_after (by decide +kernel), next_of_after (by decide +kernel), by decide, by decide⟩

theorem witness_DiscardFrame :
    threeUsed.fault = false ∧ standard.fault = false ∧ (∃ t, exec (.discard 62) threeUsed = .next t ∧ t.fault = false) ∧
    (∃ t, exec (.discard 62) standard = .next t ∧ t.fault = true) :=
  ⟨rfl, rfl, next_of_after (by decide +kernel), next_of_after (by decide +kernel)⟩

/-- A second memory that differs in a byte outside the input range, and inside the output range. -/
theorem witness_CommandsTouchOnlyTheirRanges :
    started.mem.wf ∧ (started.mem.write 0x200 9).wf ∧ started.fault = false ∧
    (∀ r ∈ readRanges (.crypt 0x100 0x200 2), ∀ k, k < r.2 →
      (started.mem.write 0x200 9).read (r.1.toNat + k) = started.mem.read (r.1.toNat + k)) ∧
    (∃ t, exec (.crypt 0x100 0x200 2) started = .next t ∧ t.fault = false) ∧
    (∀ r ∈ writeRanges (.crypt 0x100 0x200 2), outside 0x202 r.1 r.2) := by
  refine ⟨by decide +kernel, by decide +kernel, rfl, ?_, next_of_after (by decide +kernel), ?_⟩
  · intro r hr k hk
    simp only [readRanges, List.mem_singleton] at hr
    subst hr
    exact Memory.read_write_other _ (show (0x100 : DWord).toNat + k ≠ 0x200 by change k < 2 at hk; change 256 + k ≠ 512; omega) _
  · intro r hr
    simp only [writeRanges, List.mem_singleton] at hr
    subst hr
    decide

/-- `threeUsed`, where every clause of the invariant says something, meets it, and a step leads on from it. -/
theorem witness_StepKeepsInvariant :
    State.Inv (State.thenHost [.submit (words 3 0 0 62)] threeUsed) ∧
    (∃ t, step (State.thenHost [.submit (words 3 0 0 62)] threeUsed) = .next t ∧ t.inited = true) :=
  ⟨⟨rfl, by unfold State.memOk; decide +kernel, fun _ => by decide, fun _ => by decide, fun _ _ => by decide +kernel,
    by unfold State.faultOk; decide⟩, next_of_after (by decide +kernel)⟩

/-- The cursor at both ends of its range. -/
theorem witness_StepKeepsCursorInRange :
    (State.thenHost [.submit (words 3 0 0 61)] threeUsed).posOk ∧ started.posOk ∧ threeUsed.inited = true ∧
    (∃ t, step (State.thenHost [.submit (words 3 0 0 61)] threeUsed) = .next t ∧ t.cipher.pos = 64) ∧
    (∃ t, step (startedHosted [.submit (words 3 0 0 1)]) = .next t ∧ t.cipher.pos = 1) :=
  ⟨fun _ => by decide, fun _ => by decide, rfl, next_of_after (by decide +kernel), next_of_after (by decide +kernel)⟩

/-- A host write of a listed byte, of the byte an unlisted address reads as. -/
theorem witness_StepKeepsMemoryCanonical :
    (hosted [.writeMem 0x20 0]).mem.wf ∧ (∃ t, step (hosted [.writeMem 0x20 0]) = .next t ∧ t.mem.read 0x20 = 0) :=
  ⟨by decide +kernel, next_of_after (by decide +kernel)⟩

/-- A platform of one core is legal after reset, one of none is not (00_scope.md R8). -/
theorem test_platform_reset : (Platform.reset 1).Legal ∧ ¬ (Platform.reset 0).Legal := by
  refine ⟨⟨by decide, ?_, ?_⟩, fun h => absurd h.numInstances (by decide)⟩
  · intro x hx
    rw [List.eq_of_mem_replicate hx]
    decide
  · intro x hx y hy
    rw [List.eq_of_mem_replicate hx, List.eq_of_mem_replicate hy]
    exact ⟨rfl, rfl⟩

/-- Two cores over one memory; the first writes it. -/
theorem witness_CoresShareOnlyMemory :
    let p : Platform := { cores := [hosted [.writeMem 0x100 7], threeUsed] }
    p.Legal ∧ p.cores[1]? = some threeUsed ∧ ∃ q, p.stepCore 0 = some (.next q) := by
  refine ⟨⟨by decide, ?_, ?_⟩, rfl, ?_⟩
  · intro x hx
    simp only [List.mem_cons, List.not_mem_nil, or_false] at hx
    rcases hx with rfl | rfl <;> decide
  · intro x hx y hy
    simp only [List.mem_cons, List.not_mem_nil, or_false] at hx hy
    rcases hx with rfl | rfl <;> rcases hy with rfl | rfl <;> exact ⟨rfl, rfl⟩
  · obtain ⟨t, ht, _⟩ := next_of_after (o := step (hosted [.writeMem 0x100 7])) (f := fun t => t.mem.read 0x100) (v := 7)
      (by decide +kernel)
    exact ⟨Platform.update { cores := [hosted [.writeMem 0x100 7], threeUsed] } 0 t,
      by simp only [Platform.stepCore, List.getElem?_cons_zero, ht]⟩

end Sys2Proof.Tests
end

section
/-! PROOFS. The cipher state and the fault record (10_state.md): what the keystream bytes and the block counter are, and which
steps write `INITED` and the fault record. -/

namespace Sys2Proof.Machine

/-! ## The bytes of a keystream block (R26) -/

theorem ksByte_eq {ks : Matrix} {p : Nat} (h : p < 64) :
    ksByte ks p = (ks[p / 4]'(by omega)).extractLsb' (8 * (p % 4)) 8 := by
  have hp : (Fin.ofNat 16 (p / 4)).val = p / 4 := Nat.mod_eq_of_lt (by omega)
  simp only [ksByte, Fin.getElem_fin, hp]

theorem ksByte_toNat {ks : Matrix} {p : Nat} (h : p < 64) :
    (ksByte ks p).toNat = (ks[p / 4]'(by omega)).toNat / 2 ^ (8 * (p % 4)) % 256 := by
  rw [ksByte_eq h, BitVec.extractLsb'_toNat, Nat.shiftRight_eq_div_pow]

/-- The positions of the bytes of word `i`. -/
def wordPositions (i : Fin 16) : List Nat := [4 * i.val, 4 * i.val + 1, 4 * i.val + 2, 4 * i.val + 3]

theorem flatMap_wordPositions : (List.finRange 16).flatMap wordPositions = List.range 64 := by decide

theorem map_ksByte_wordPositions (ks : Matrix) (i : Fin 16) : (wordPositions i).map (ksByte ks) = bytes32 ks[i] := by
  have hbyte : ∀ k < 4, ksByte ks (4 * i.val + k) = ks[i].extractLsb' (8 * k) 8 := by
    intro k hk
    have hw : (4 * i.val + k) / 4 = i.val := by omega
    have hb : (4 * i.val + k) % 4 = k := by omega
    simp only [ksByte_eq (show 4 * i.val + k < 64 by omega), hw, hb, Fin.getElem_fin]
  have hbyte0 : ksByte ks (4 * i.val) = ks[i].extractLsb' 0 8 := hbyte 0 (by omega)
  simp [wordPositions, bytes32, hbyte, hbyte0]

theorem map_ksByte_range (ks : Matrix) : (List.range 64).map (ksByte ks) = ks.toList.flatMap bytes32 := by
  have hwords : ks.toList = (List.finRange 16).map (fun i => ks[i]) := by
    refine List.ext_getElem (by simp) (fun i _ _ => ?_)
    simp only [Vector.getElem_toList, List.getElem_map, List.getElem_finRange, Fin.getElem_fin, Fin.val_cast]
  rw [← flatMap_wordPositions, List.map_flatMap, hwords, List.flatMap_map]
  simp only [map_ksByte_wordPositions]

/-- Settles O26: each byte is its slice of its word, and the positions 0 to 63 are those of words 0 to 15 in order. -/
theorem keystreamBlockBytes : Obligations.KeystreamBlockBytes :=
  fun ks => ⟨fun _ h => ksByte_toNat h, map_ksByte_range ks⟩

/-! ## The block counter (R23) -/

theorem Cipher.ctr_toNat (c : Cipher) : c.ctr.toNat = c.st[13].toNat * 2 ^ 32 + c.st[12].toNat := by
  rw [Cipher.ctr, BitVec.toNat_append, ← Nat.shiftLeft_add_eq_or_of_lt c.st[12].isLt, Nat.shiftLeft_eq]

theorem withCtr_low_toNat (st : Matrix) (v : DWord) : (withCtr v st)[12].toNat = v.toNat % 2 ^ 32 := by
  simp [withCtr_low]

theorem withCtr_high_toNat (st : Matrix) (v : DWord) : (withCtr v st)[13].toNat = v.toNat / 2 ^ 32 := by
  rw [withCtr_high, BitVec.extractLsb'_toNat, Nat.shiftRight_eq_div_pow]
  omega

/-- Settles O24: the two words as numbers, the frame of `withCtr`, and `Cipher.ctr_setCtr`. -/
theorem counterIsTwoMatrixWords : Obligations.CounterIsTwoMatrixWords := by
  intro c v
  refine ⟨c.ctr_toNat, withCtr_low_toNat c.st v, withCtr_high_toNat c.st v, ?_, c.setCtr_ks v, c.setCtr_pos v, c.ctr_setCtr v⟩
  intro i h12 h13
  exact withCtr_other c.st v i.isLt (Fin.val_ne_of_ne h12) (Fin.val_ne_of_ne h13)

/-! ## Steps at a RESET and at a SUBMIT -/

theorem step_reset {s t : State} {rest : List HostAction} (h : step s = .next t) (hs : s.script = .reset :: rest) :
    t = State.hostReset { s with script := rest } := by
  rw [step_script hs] at h
  exact (Host.Outcome.next.inj h).symm

/-- A step at a SUBMIT that has a next state found the port ready, and is the submission. -/
theorem step_submit {s t : State} {d : Descriptor} {rest : List HostAction} (h : step s = .next t)
    (hs : s.script = .submit d :: rest) :
    s.fault = false ∧ hostSubmit d { s with script := rest } = .next t := by
  rw [step_script hs] at h
  exact ⟨(hostSubmit_next h).1, h⟩

/-- A step at a SUBMIT of a descriptor that decodes runs its command on the accepted state. -/
theorem step_submit_decoded {s t : State} {d : Descriptor} {i : Instr} {rest : List HostAction} (h : step s = .next t)
    (hs : s.script = .submit d :: rest) (hd : decode d = .ok i) :
    exec i (State.accept { s with script := rest }) = .next t := by
  have hsub := (step_submit h hs).2
  obtain ⟨hf, hb, -⟩ := hostSubmit_next hsub
  rw [← hostSubmit_decoded hf hb hd, hsub]

/-! ## The fault record (R30) -/

/-- A step that changes the fault record is a RESET or a fault entry from `FAULT = 0`. -/
theorem step_fault_record {s t : State} (h : step s = .next t) :
    (t.fault = s.fault ∧ t.cause = s.cause ∧ t.info = s.info) ∨
    (∃ rest, s.script = .reset :: rest) ∨
    (s.fault = false ∧ t.fault = true ∧ ∃ d rest, s.script = .submit d :: rest) := by
  rcases step_next_cases h with ⟨-, rfl⟩ | ⟨d, rest, hs, hf, -, hend⟩ | ⟨i, rest, -, rfl⟩ | ⟨a, rest, -, -, rfl⟩ |
    ⟨a, v, rest, -, -, rfl⟩ | ⟨rest, hs, -⟩
  · exact .inl ⟨rfl, rfl, rfl⟩
  · rcases hend with ⟨cause, info, rfl⟩ | ⟨i, c, m, b, -, -, rfl⟩
    · exact .inr (.inr ⟨hf, rfl, d, rest, hs⟩)
    · exact .inl ⟨rfl, rfl, rfl⟩
  · exact .inl ⟨rfl, rfl, rfl⟩
  · exact .inl ⟨rfl, rfl, rfl⟩
  · exact .inl ⟨rfl, rfl, rfl⟩
  · exact .inr (.inl ⟨rest, hs⟩)

/-- Settles O17: `step_fault_record` for every step, and the fields that RESET and fault entry write. -/
theorem faultRecordWrittenOnlyByFaultEntryAndReset : Obligations.FaultRecordWrittenOnlyByFaultEntryAndReset := by
  refine ⟨fun s t h => ⟨?reset, ?changed⟩, ?entry, ?halted, rfl, rfl, rfl⟩
  case reset =>
    intro rest hs
    simp [step_reset h hs]
  case changed =>
    intro hreset hchanged
    rcases step_fault_record h with hkept | ⟨rest, hs⟩ | hfault
    · exact absurd hkept hchanged
    · exact absurd hs (hreset rest)
    · exact hfault
  case entry =>
    exact fun s cause info => ⟨s.faultEntry_fault cause info, s.faultEntry_cause cause info, s.faultEntry_info cause info⟩
  case halted =>
    intro s d rest hf hs t h
    exact absurd hf (by simp [(step_submit h hs).1])

/-! ## `INITED` (R29) -/

/-- A command that is not INIT keeps `INITED`. -/
theorem exec_inited {i : Instr} {s t : State} (hi : ∀ a b, i ≠ .init a b) (h : exec i s = .next t) :
    t.inited = s.inited := by
  cases i with
  | init a b => exact absurd rfl (hi a b)
  | crypt a b c =>
    change execCrypt a b c s = .next t at h
    rcases execCrypt_cases a b c s with ⟨-, e⟩ | ⟨-, -, e⟩ | ⟨-, -, -, e⟩ | ⟨-, -, -, -, e⟩ | ⟨-, -, -, -, e⟩ <;>
      (rw [e] at h; cases h; rfl)
  | discard c =>
    change execDiscard c s = .next t at h
    rcases execDiscard_cases c s with ⟨-, e⟩ | ⟨-, e⟩ <;> (rw [e] at h; cases h; rfl)
  | hchacha20 a b c =>
    change execHchacha20 a b c s = .next t at h
    rcases execHchacha20_cases a b c s with ⟨-, e⟩ | ⟨-, -, e⟩ | ⟨-, -, -, e⟩ | ⟨-, -, -, e⟩ <;>
      (rw [e] at h; cases h; rfl)

/-- The first check of CRYPT and of DISCARD, before any other (R176). -/
theorem exec_notInitialized {i : Instr} {s : State} (hop : i.opcode = .crypt ∨ i.opcode = .discard)
    (hs : s.inited = false) : exec i s = .next (s.faultEntry .notInitialized 0) := by
  cases i with
  | init a b => simp [Instr.opcode] at hop
  | crypt a b c => simp [exec, execCrypt, hs, raise]
  | discard c => simp [exec, execDiscard, hs, raise]
  | hchacha20 a b c => simp [Instr.opcode] at hop

/-- A step that changes `INITED` is a RESET or an INIT that completes. -/
theorem step_inited {s t : State} (h : step s = .next t) :
    t.inited = s.inited ∨
    (∃ rest, s.script = .reset :: rest) ∨
    (∃ d rest a b, s.script = .submit d :: rest ∧ decode d = .ok (.init a b) ∧ t.fault = false) := by
  rcases step_next_cases h with ⟨-, rfl⟩ | ⟨d, rest, hs, hf, -, hend⟩ | ⟨i, rest, -, rfl⟩ | ⟨a, rest, -, -, rfl⟩ |
    ⟨a, v, rest, -, -, rfl⟩ | ⟨rest, hs, -⟩
  · exact .inl rfl
  · rcases hend with ⟨cause, info, rfl⟩ | ⟨i, c, m, b, hd, hexec, ht⟩
    · exact .inl rfl
    · by_cases hi : ∃ a b, i = .init a b
      · obtain ⟨a, b, rfl⟩ := hi
        exact .inr (.inr ⟨d, rest, a, b, hs, hd, by simpa [ht] using hf⟩)
      · have hkept := exec_inited (fun a b e => hi ⟨a, b, e⟩) hexec
        exact .inl hkept
  · exact .inl rfl
  · exact .inl rfl
  · exact .inl rfl
  · exact .inr (.inl ⟨rest, hs⟩)

/-- Settles O18: `step_inited` for every step, and what RESET, a completed INIT and an early CRYPT or DISCARD leave. -/
theorem initedWrittenOnlyByInitAndReset : Obligations.InitedWrittenOnlyByInitAndReset := by
  refine ⟨rfl, fun s t h => ⟨?reset, ?init, ?changed, ?early⟩⟩
  case reset =>
    intro rest hs
    simp [step_reset h hs]
  case init =>
    intro d rest a b hs hd hf
    obtain ⟨-, -, -, ht⟩ := execInit_completed (step_submit_decoded h hs hd) hf
    rw [ht]
  case changed =>
    exact fun hchanged => (step_inited h).resolve_left hchanged
  case early =>
    intro d rest i hs hd hop hin
    have hexec := step_submit_decoded h hs hd
    rw [exec_notInitialized hop (by simpa using hin)] at hexec
    cases hexec
    simp [Cause.code]

end Sys2Proof.Machine
end

section
/-! PROOFS. Buffer memory (20_memory.md): the ranges a command reads decide all it does beside memory, and the range it writes
holds all it does to memory. -/

namespace Sys2Proof.Machine

/-! ## The arms of `exec` -/

@[simp] theorem exec_init (a b : DWord) (s : State) : exec (.init a b) s = execInit a b s := rfl
@[simp] theorem exec_crypt (a b c : DWord) (s : State) : exec (.crypt a b c) s = execCrypt a b c s := rfl
@[simp] theorem exec_discard (c : DWord) (s : State) : exec (.discard c) s = execDiscard c s := rfl
@[simp] theorem exec_hchacha20 (a b c : DWord) (s : State) : exec (.hchacha20 a b c) s = execHchacha20 a b c s := rfl

/-! ## The same state over another memory -/

@[simp] theorem State.withMem_cipher (s : State) (m : Memory) : (s.withMem m).cipher = s.cipher := rfl
@[simp] theorem State.withMem_inited (s : State) (m : Memory) : (s.withMem m).inited = s.inited := rfl
@[simp] theorem State.withMem_mem (s : State) (m : Memory) : (s.withMem m).mem = m := rfl

/-- The admission of a range reads no byte of memory (R55). -/
@[simp] theorem State.withMem_valid (s : State) (m : Memory) (a : DWord) (n : Nat) :
    (s.withMem m).valid a n = s.valid a n := rfl

/-- Two memories hold the same bytes in the ranges a command reads. -/
abbrev agreeOnReads (i : Instr) (m n : Memory) : Prop :=
  ∀ r ∈ readRanges i, ∀ k, k < r.2 → m.read (r.1.toNat + k) = n.read (r.1.toNat + k)

/-- A range that a command reads holds the same bytes in a memory that agrees. -/
theorem memRead_withMem {i : Instr} {s : State} {m : Memory} (h : agreeOnReads i m s.mem) {a : DWord} {n : Nat}
    (hr : (a, n) ∈ readRanges i) : (s.withMem m).memRead a n = s.memRead a n :=
  Memory.readBytes_congr (h (a, n) hr)

/-! ## What a command does over all memories that agree with the state's (R57) -/

/-- The command enters one fault, whatever the memory. -/
def faultsAlike (i : Instr) (s : State) : Prop :=
  ∃ cause info, ∀ m, exec i (s.withMem m) = raise cause info (s.withMem m)

/-- The command completes in every memory that agrees, with one outcome beside memory, and stores nothing. -/
def completesAlikeNoStore (i : Instr) (s : State) : Prop :=
  writeRanges i = [] ∧ ∃ c b, ∀ m, agreeOnReads i m s.mem →
    exec i (s.withMem m) = .next { s.withMem m with cipher := c, inited := b, busy := false }

/-- The command completes in every memory that agrees, with one outcome beside memory, and stores one byte string, which fills the
range it writes. -/
def completesAlikeOneStore (i : Instr) (s : State) : Prop :=
  ∃ (a : DWord) (bs : Bytes), writeRanges i = [(a, bs.length)] ∧ ∃ c b, ∀ m, agreeOnReads i m s.mem →
    exec i (s.withMem m) = .next { s.withMem m with cipher := c, mem := m.writeBytes a.toNat bs, inited := b, busy := false }

theorem init_alike (a b : DWord) (s : State) : faultsAlike (.init a b) s ∨ completesAlikeNoStore (.init a b) s := by
  have hother := fun m => execInit_cases a b (s.withMem m)
  rcases execInit_cases a b s with ⟨ha, -⟩ | ⟨ha, hb, -⟩ | ⟨ha, hb, -⟩
  · exact .inl ⟨.access, 1, fun m => by simpa [ha] using hother m⟩
  · exact .inl ⟨.access, 2, fun m => by simpa [ha, hb] using hother m⟩
  · refine .inr ⟨rfl, s.cipher.start (s.memRead a 32) (s.memRead b 24), true, fun m h => ?_⟩
    have hkey : (s.withMem m).memRead a 32 = s.memRead a 32 := memRead_withMem h (by simp [readRanges])
    have hnonce : (s.withMem m).memRead b 24 = s.memRead b 24 := memRead_withMem h (by simp [readRanges])
    simpa [ha, hb, hkey, hnonce] using hother m

theorem crypt_alike (a b c : DWord) (s : State) :
    faultsAlike (.crypt a b c) s ∨ completesAlikeOneStore (.crypt a b c) s := by
  have hother := fun m => execCrypt_cases a b c (s.withMem m)
  rcases execCrypt_cases a b c s with ⟨hi, -⟩ | ⟨hi, ha, -⟩ | ⟨hi, ha, hb, -⟩ | ⟨hi, ha, hb, ho, -⟩ | ⟨hi, ha, hb, ho, -⟩
  · exact .inl ⟨.notInitialized, 0, fun m => by simpa [hi] using hother m⟩
  · exact .inl ⟨.access, 1, fun m => by simpa [hi, ha] using hother m⟩
  · exact .inl ⟨.access, 2, fun m => by simpa [hi, ha, hb] using hother m⟩
  · exact .inl ⟨.overlap, 2, fun m => by simpa [hi, ha, hb, ho] using hother m⟩
  · have hlen : (xorBytes (s.memRead a c.toNat) (s.cipher.keystream c.toNat)).length = c.toNat := length_cryptOutput ..
    refine .inr ⟨b, xorBytes (s.memRead a c.toNat) (s.cipher.keystream c.toNat), by rw [hlen]; rfl, s.cipher.use c.toNat, true,
      fun m h => ?_⟩
    have hinput : (s.withMem m).memRead a c.toNat = s.memRead a c.toNat := memRead_withMem h (by simp [readRanges])
    simpa [hi, ha, hb, ho, hinput] using hother m

theorem discard_alike (c : DWord) (s : State) : faultsAlike (.discard c) s ∨ completesAlikeNoStore (.discard c) s := by
  have hother := fun m => execDiscard_cases c (s.withMem m)
  rcases execDiscard_cases c s with ⟨hi, -⟩ | ⟨hi, -⟩
  · exact .inl ⟨.notInitialized, 0, fun m => by simpa [hi] using hother m⟩
  · exact .inr ⟨rfl, s.cipher.discard c.toNat, true, fun m _ => by simpa [hi] using hother m⟩

theorem hchacha20_alike (a b c : DWord) (s : State) :
    faultsAlike (.hchacha20 a b c) s ∨ completesAlikeOneStore (.hchacha20 a b c) s := by
  have hother := fun m => execHchacha20_cases a b c (s.withMem m)
  rcases execHchacha20_cases a b c s with ⟨ha, -⟩ | ⟨ha, hb, -⟩ | ⟨ha, hb, hc, -⟩ | ⟨ha, hb, hc, -⟩
  · exact .inl ⟨.access, 1, fun m => by simpa [ha] using hother m⟩
  · exact .inl ⟨.access, 2, fun m => by simpa [ha, hb] using hother m⟩
  · exact .inl ⟨.access, 3, fun m => by simpa [ha, hb, hc] using hother m⟩
  · refine .inr ⟨c, s.derivedSubkey a b, by rw [s.length_derivedSubkey]; rfl, s.cipher, s.inited, fun m h => ?_⟩
    have hkey : (s.withMem m).memRead a 32 = s.memRead a 32 := memRead_withMem h (by simp [readRanges])
    have hnonce : (s.withMem m).memRead b 16 = s.memRead b 16 := memRead_withMem h (by simp [readRanges])
    have hsubkey : (s.withMem m).derivedSubkey a b = s.derivedSubkey a b := congrArg₂ hsubkey hkey hnonce
    simpa [ha, hb, hc, hsubkey] using hother m

/-- Everything a command can do over all the memories that agree on what it reads. -/
theorem exec_alike (i : Instr) (s : State) :
    faultsAlike i s ∨ completesAlikeNoStore i s ∨ completesAlikeOneStore i s := by
  cases i with
  | init a b => exact (init_alike a b s).imp_right .inl
  | crypt a b c => exact (crypt_alike a b c s).imp_right .inr
  | discard c => exact (discard_alike c s).imp_right .inl
  | hchacha20 a b c => exact (hchacha20_alike a b c s).imp_right .inr

/-- Settles O55: `exec_alike` at the state's own memory and at the other one. A fault and a command without a store leave both
memories as they were, and a store is of the same bytes in both. -/
theorem commandsTouchOnlyTheirRanges : Obligations.CommandsTouchOnlyTheirRanges := by
  intro i s t m hwf hwfm _ hagree hexec
  have hself : agreeOnReads i s.mem s.mem := fun _ _ _ _ => rfl
  rcases exec_alike i s with ⟨cause, info, heq⟩ | ⟨hnone, c, b, heq⟩ | ⟨a, bs, hrange, c, b, heq⟩
  · obtain rfl := Host.Outcome.next.inj ((heq s.mem).symm.trans hexec)
    exact ⟨_, heq m, rfl, fun hf => absurd hf (by simp), fun _ _ => ⟨rfl, rfl⟩⟩
  · obtain rfl := Host.Outcome.next.inj ((heq s.mem hself).symm.trans hexec)
    exact ⟨_, heq m hagree, rfl, fun _ r hr => absurd hr (by simp [hnone]), fun _ _ => ⟨rfl, rfl⟩⟩
  · obtain rfl := Host.Outcome.next.inj ((heq s.mem hself).symm.trans hexec)
    refine ⟨_, heq m hagree, rfl, fun _ => ?inside, ?outside⟩ <;> simp only [hrange, List.mem_singleton, forall_eq]
    case inside =>
      exact fun k hk => (Memory.read_writeBytes_inside hwfm hk).trans (Memory.read_writeBytes_inside hwf hk).symm
    case outside =>
      exact fun x hx => ⟨Memory.read_writeBytes_outside _ hx, Memory.read_writeBytes_outside _ hx⟩

end Sys2Proof.Machine
end

section
/-! PROOFS. The encoding (30_encoding.md): where each word of a descriptor lies in the 256-bit value, and what a listing line
stands for. -/

namespace Sys2Proof

/-! ## The 256-bit value of a descriptor (R71) -/

/-- Word `Dw` starts at bit `64 * w`. -/
theorem Descriptor.toBits_getLsbD (d : Descriptor) (w : Fin 4) {i : Nat} (h : i < 64) :
    d.toBits.getLsbD (64 * w.val + i) = (d.word w).getLsbD i := by
  have habove : ∀ n ≥ 64, ¬ n + i < 64 := by omega
  have hdown : ∀ n ≥ 64, n + i - 64 = n - 64 + i := by omega
  simp only [Descriptor.toBits, BitVec.getLsbD_append]
  fin_cases w <;> simp [Descriptor.word, habove, hdown, h]

/-- A field inside word `Dw` is the same bits of the 256-bit value, `64 * w` higher. -/
theorem Descriptor.toBits_extractLsb' (d : Descriptor) (w : Fin 4) {lo len : Nat} (h : lo + len ≤ 64) :
    d.toBits.extractLsb' (64 * w.val + lo) len = (d.word w).extractLsb' lo len := by
  apply BitVec.eq_of_getLsbD_eq
  intro i hi
  rw [BitVec.getLsbD_extractLsb', BitVec.getLsbD_extractLsb', Nat.add_assoc, d.toBits_getLsbD w (by omega)]

theorem Descriptor.toBits_extractWord (d : Descriptor) (w : Fin 4) :
    d.toBits.extractLsb' (64 * w.val) 64 = d.word w :=
  (d.toBits_extractLsb' w (Nat.le_refl 64)).trans BitVec.extractLsb'_eq_self

theorem Descriptor.ofBits_toBits (d : Descriptor) : Descriptor.ofBits d.toBits = d := by
  have h0 : d.toBits.extractLsb' 0 64 = d.d0 := d.toBits_extractWord 0
  have h1 : d.toBits.extractLsb' 64 64 = d.d1 := d.toBits_extractWord 1
  have h2 : d.toBits.extractLsb' 128 64 = d.d2 := d.toBits_extractWord 2
  have h3 : d.toBits.extractLsb' 192 64 = d.d3 := d.toBits_extractWord 3
  rw [Descriptor.ofBits, h0, h1, h2, h3]

theorem Descriptor.opc_toNat (d : Descriptor) : d.opc.toNat = d.d0.toNat % 256 :=
  BitVec.extractLsb'_toNat ..

theorem Descriptor.rsv_toNat (d : Descriptor) : d.rsv.toNat = d.d0.toNat / 256 := by
  rw [Descriptor.rsv, BitVec.extractLsb'_toNat, Nat.shiftRight_eq_div_pow]
  omega

/-- Settles O4: `Descriptor.toBits_getLsbD` at word `k / 64`, and each field as a slice of its word. -/
theorem descriptorBitLayout : Obligations.DescriptorBitLayout := by
  intro d
  have hopc : 0 + 8 ≤ 64 := by decide
  have hrsv : 8 + 56 ≤ 64 := by decide
  refine ⟨?bit, d.toBits_extractLsb' 0 hopc, d.toBits_extractLsb' 0 hrsv, d.toBits_extractWord 1, d.toBits_extractWord 2,
    d.toBits_extractWord 3, d.opc_toNat, d.rsv_toNat, rfl, rfl, rfl, d.ofBits_toBits⟩
  case bit =>
    intro k h
    have hk := d.toBits_getLsbD ⟨k / 64, by omega⟩ (Nat.mod_lt k (by decide : 64 > 0))
    rwa [Nat.div_add_mod] at hk

/-! ## Listing lines (R79, R80) -/

/-- A line that holds an operand of 2^64 or more is refused, whatever its mnemonic and its other operands. -/
theorem Line.assemble_tooLarge {l : Line} (h : ∃ n ∈ l.operands, 2 ^ 64 ≤ n) : l.assemble = .error .operandTooLarge := by
  obtain ⟨n, hn, hlarge⟩ := h
  have hfit : l.operandsFit = false := List.all_eq_false.mpr ⟨n, hn, by simpa using hlarge⟩
  simp only [Line.assemble, hfit, Bool.not_false, if_true]

/-- A line whose operands are 64-bit words stands for the command its mnemonic selects. -/
theorem Line.assemble_words {m : Mnemonic} {i : Instr} (ws : List DWord)
    (h : (Line.mk m (ws.map BitVec.toNat)).select = some i) : (Line.mk m (ws.map BitVec.toNat)).assemble = .ok i := by
  have hfit : (Line.mk m (ws.map BitVec.toNat)).operandsFit = true := by
    simp only [Line.operandsFit, List.all_map, List.all_eq_true]
    exact fun w _ => decide_eq_true w.isLt
  simp only [Line.assemble, hfit, h, Bool.not_true, Bool.false_eq_true, if_false]

/-- Settles O6: the command each mnemonic selects, by `Line.assemble_words`, and the refusal by `Line.assemble_tooLarge`. -/
theorem listingLinesAssemble : Obligations.ListingLinesAssemble := by
  refine ⟨fun a b c => ⟨?init, rfl, ?crypt, rfl, ?discard, rfl, ?hchacha20, rfl, ?encrypt, ?decrypt, ?cryptip, ?skip⟩,
    fun _ => Line.assemble_tooLarge⟩
  case init => exact Line.assemble_words [a, b] (by simp [Line.select])
  case crypt => exact Line.assemble_words [a, b, c] (by simp [Line.select])
  case discard => exact Line.assemble_words [c] (by simp [Line.select])
  case hchacha20 => exact Line.assemble_words [a, b, c] (by simp [Line.select])
  case encrypt => exact Line.assemble_words [a, b, c] (by simp [Line.select])
  case decrypt => exact Line.assemble_words [a, b, c] (by simp [Line.select])
  case cryptip => exact Line.assemble_words [a, c] (by simp [Line.select])
  case skip => exact Line.assemble_words [c] (by simp [Line.select])

/-! ## The encoding examples (R82) -/

/-- Settles O1: the assembler run on the four lines, whose descriptors are those `encode` makes, and `Laws.EncodeDecode`. -/
theorem exampleDescriptorsDecode : Obligations.ExampleDescriptorsDecode := by
  refine ⟨?init, ?crypt, ?discard, ?hchacha20, ?decoded⟩
  case init => decide
  case crypt => decide
  case discard => decide
  case hchacha20 => decide
  case decoded =>
    exact ⟨(Laws.EncodeDecode.init 0x0 0x20).1, (Laws.EncodeDecode.crypt 0x100 0x200 200).1,
      (Laws.EncodeDecode.discard 129).1, (Laws.EncodeDecode.hchacha20 0x0 0x20 0x40).1, by decide⟩

end Sys2Proof
end

section
/-! PROOFS. The block permutation (40_permutation.md): the four words of a quadruple and the rest of a matrix, as a quarter-round
sees them. From these come the in-place form, disjoint quarter-rounds in any order, and PERMUTE as 80 of them and as a bijection. -/

namespace Sys2Proof.Machine

/-! ## The words of a quadruple (R101) -/

/-- The four words a quarter-round reads, in the order of its roles. -/
def readQuad (q : Quad) (x : Matrix) : Word × Word × Word × Word := (x[q.a], x[q.b], x[q.c], x[q.d])

theorem readQuad_eq_iff {q : Quad} {x y : Matrix} : readQuad q x = readQuad q y ↔ ∀ i ∈ q.indices, x[i] = y[i] := by
  simp [readQuad, Quad.indices]

/-- Two matrices are the same if they have the same words in a quadruple and the same words outside it. -/
theorem matrix_ext_quad {x y : Matrix} (q : Quad) (hin : readQuad q x = readQuad q y)
    (hout : ∀ i ∉ q.indices, x[i] = y[i]) : x = y := by
  have hword (i : Fin 16) : x[i] = y[i] := by
    by_cases hi : i ∈ q.indices
    · exact readQuad_eq_iff.mp hin i hi
    · exact hout i hi
  exact Vector.ext fun i hi => hword ⟨i, hi⟩

theorem readQuad_qr (q : Quad) (x : Matrix) : readQuad q (qr q x) = quarterWords x[q.a] x[q.b] x[q.c] x[q.d] := by
  rw [readQuad, qr_a, qr_b, qr_c, qr_d]

/-- The four words decide what a quarter-round makes of them, and can be had back from it (R106). -/
theorem readQuad_qr_inj {q : Quad} {x y : Matrix} : readQuad q (qr q x) = readQuad q (qr q y) ↔ readQuad q x = readQuad q y := by
  rw [readQuad_qr, readQuad_qr]
  constructor
  · intro h
    have hundone := congrArg (fun w => quarterWordsInv w.1 w.2.1 w.2.2.1 w.2.2.2) h
    exact (quarterWordsInv_quarterWords ..).symm.trans (hundone.trans (quarterWordsInv_quarterWords ..))
  · intro h
    simp only [readQuad, Prod.mk.injEq] at h
    obtain ⟨ha, hb, hc, hd⟩ := h
    rw [ha, hb, hc, hd]

/-! ## The quarter-round in place (R101) -/

theorem readQuad_quarterRoundInPlace (q : Quad) (x : Matrix) :
    readQuad q (quarterRoundInPlace q x) = quarterWords x[q.a] x[q.b] x[q.c] x[q.d] := by
  obtain ⟨hab, hac, had, hbc, hbd, hcd⟩ := q.ne
  simp only [Fin.ne_iff_vne] at hab hac had hbc hbd hcd
  simp [readQuad, quarterRoundInPlace, quarterWords, hab, hac, had, hbc, hbd, hcd, hab.symm, hac.symm, had.symm, hbc.symm,
    hbd.symm, hcd.symm]

theorem quarterRoundInPlace_other {q : Quad} {i : Fin 16} (x : Matrix) (h : i ∉ q.indices) :
    (quarterRoundInPlace q x)[i] = x[i] := by
  simp only [Quad.indices, List.mem_cons, List.not_mem_nil, or_false, not_or, Fin.ext_iff] at h
  obtain ⟨ha, hb, hc, hd⟩ := h
  simp [quarterRoundInPlace, Ne.symm ha, Ne.symm hb, Ne.symm hc, Ne.symm hd]

theorem qr_eq_quarterRoundInPlace : qr = quarterRoundInPlace := by
  funext q x
  apply matrix_ext_quad q
  · rw [readQuad_qr, readQuad_quarterRoundInPlace]
  · intro i hi
    rw [qr_other q x hi, quarterRoundInPlace_other x hi]

/-- A quadruple of zero words stays as it is. -/
theorem qr_of_readQuad_zero {q : Quad} {x : Matrix} (h : readQuad q x = (0, 0, 0, 0)) : qr q x = x := by
  apply matrix_ext_quad q
  · simp only [readQuad, Prod.mk.injEq] at h
    obtain ⟨ha, hb, hc, hd⟩ := h
    have hzero : quarterWords 0 0 0 0 = (0, 0, 0, 0) := by decide
    rw [readQuad_qr, readQuad, ha, hb, hc, hd, hzero]
  · exact fun i hi => qr_other q x hi

/-- Settles O28: `qr_eq_quarterRoundInPlace`, the frame `qr_other`, and `qr_of_readQuad_zero`. -/
theorem quarterRoundIsTheInPlaceSteps : Obligations.QuarterRoundIsTheInPlaceSteps := by
  intro q x
  refine ⟨?inPlace, ?frame, ?zero⟩
  case inPlace => rw [qr_eq_quarterRoundInPlace]
  case frame => exact fun i ha hb hc hd => qr_other q x (by simp [Quad.indices, ha, hb, hc, hd])
  case zero => exact fun ha hb hc hd => qr_of_readQuad_zero (by rw [readQuad, ha, hb, hc, hd])

/-! ## Rounds in any order (R102, R103) -/

/-- A quarter-round changes no word of a quadruple disjoint from its own. -/
theorem readQuad_qr_of_disjoint {p q : Quad} (h : p.indices.Disjoint q.indices) (x : Matrix) :
    readQuad p (qr q x) = readQuad p x :=
  readQuad_eq_iff.mpr fun _ hi => qr_other q x (h hi)

theorem qr_commute_of_disjoint {p q : Quad} (h : p.indices.Disjoint q.indices) : Function.Commute (qr p) (qr q) := by
  intro x
  apply matrix_ext_quad p
  · rw [readQuad_qr_of_disjoint h, readQuad_qr_inj, readQuad_qr_of_disjoint h]
  · intro i hp
    rw [qr_other p _ hp]
    by_cases hq : i ∈ q.indices
    · have hread : readQuad q (qr q x) = readQuad q (qr q (qr p x)) :=
        readQuad_qr_inj.mpr (readQuad_qr_of_disjoint h.symm x).symm
      exact readQuad_eq_iff.mp hread i hq
    · rw [qr_other q x hq, qr_other q _ hq, qr_other p x hp]

/-- The quarter-rounds of a list, first quadruple first. -/
def qrs (l : List Quad) (x : Matrix) : Matrix := l.foldl (fun y q => qr q y) x

theorem qrs_eq_foldl_inPlace (l : List Quad) (x : Matrix) : qrs l x = l.foldl (fun y q => quarterRoundInPlace q y) x := by
  rw [qrs, qr_eq_quarterRoundInPlace]

theorem qrs_append (l m : List Quad) (x : Matrix) : qrs (l ++ m) x = qrs m (qrs l x) := List.foldl_append

/-- Quadruples without a common word may be done in any order. -/
theorem qrs_perm {l m : List Quad} (hdisjoint : (m.flatMap Quad.indices).Nodup) (hperm : l.Perm m) (x : Matrix) :
    qrs l x = qrs m x := by
  have hpairs : m.Pairwise (fun p q => Function.Commute (qr p) (qr q)) :=
    (List.nodup_flatMap.mp hdisjoint).2.imp qr_commute_of_disjoint
  have hsymm : Std.Symm (fun p q => Function.Commute (qr p) (qr q)) := ⟨fun _ _ h => h.symm⟩
  have hcommute := hpairs.forall_of_forall (fun q _ => .refl (qr q))
  exact (hperm.symm.foldl_eq' (fun p hp q hq y => hcommute hq hp y) x).symm

def columnQuads : List Quad := [col0, col1, col2, col3]

def diagonalQuads : List Quad := [diag0, diag1, diag2, diag3]

theorem qrs_columnQuads (x : Matrix) : qrs columnQuads x = columnRound x := rfl

theorem qrs_diagonalQuads (x : Matrix) : qrs diagonalQuads x = diagonalRound x := rfl

/-- Settles O29: `qrs_perm`, as the column quadruples, and the diagonal ones, have no word in common. -/
theorem roundsDoNotDependOnQuadrupleOrder : Obligations.RoundsDoNotDependOnQuadrupleOrder := by
  refine ⟨fun l x hperm => ?columns, fun l x hperm => ?diagonals⟩
  case columns => rw [← qrs_eq_foldl_inPlace, ← qrs_columnQuads, qrs_perm (m := columnQuads) (by decide) hperm]
  case diagonals => rw [← qrs_eq_foldl_inPlace, ← qrs_diagonalQuads, qrs_perm (m := diagonalQuads) (by decide) hperm]

/-! ## PERMUTE (R104 to R107) -/

theorem doubleRounds_eq_iterate (n : Nat) (x : Matrix) : doubleRounds n x = doubleRound^[n] x := by
  induction n generalizing x with
  | zero => rfl
  | succ n ih => exact ih (doubleRound x)

/-- The quadruples of `n` double rounds: the same list for every matrix (R107). -/
def doubleRoundQuads (n : Nat) : List Quad := (List.replicate n (columnQuads ++ diagonalQuads)).flatten

theorem doubleRounds_eq_qrs (n : Nat) (x : Matrix) : doubleRounds n x = qrs (doubleRoundQuads n) x := by
  induction n generalizing x with
  | zero => rfl
  | succ n ih =>
    have hquads : doubleRoundQuads (n + 1) = columnQuads ++ diagonalQuads ++ doubleRoundQuads n := rfl
    rw [doubleRounds, doubleRound, ih, hquads, qrs_append, qrs_append, qrs_columnQuads, qrs_diagonalQuads]

theorem qrs_zero (l : List Quad) : qrs l (Vector.replicate 16 0) = Vector.replicate 16 0 := by
  induction l with
  | nil => rfl
  | cons q l ih =>
    have hq : qr q (Vector.replicate 16 0) = Vector.replicate 16 0 := qr_of_readQuad_zero (by simp [readQuad])
    exact (congrArg (qrs l) hq).trans ih

/-- Settles O30: PERMUTE as an iteration by `doubleRounds_eq_iterate` and as the list `doubleRoundQuads 10` by
`doubleRounds_eq_qrs`; the zero matrix by `qrs_zero`. -/
theorem permuteIsEightyFixedQuarterRounds : Obligations.PermuteIsEightyFixedQuarterRounds := by
  refine ⟨?iterate, ⟨doubleRoundQuads 10, by decide, ?sequence⟩, ?zero⟩
  case iterate => exact doubleRounds_eq_iterate 10
  case sequence => exact fun x => (doubleRounds_eq_qrs 10 x).trans (qrs_eq_foldl_inPlace _ x)
  case zero => exact (doubleRounds_eq_qrs 10 _).trans (qrs_zero _)

theorem qr_injective (q : Quad) : Function.Injective (qr q) := by
  intro x y h
  apply matrix_ext_quad q
  · exact readQuad_qr_inj.mp (congrArg (readQuad q) h)
  · intro i hi
    rw [← qr_other q x hi, ← qr_other q y hi, h]

theorem qrs_injective (l : List Quad) : Function.Injective (qrs l) := by
  induction l with
  | nil => exact Function.injective_id
  | cons q l ih => exact ih.comp (qr_injective q)

theorem finite_matrix : Finite Matrix :=
  Finite.of_injective (fun (x : Matrix) (i : Fin 16) => x[i]) fun _ _ h => Vector.ext fun i hi => congrFun h ⟨i, hi⟩

/-- Settles O31: quarter-rounds are injective (`qrs_injective`), and there are finitely many matrices. -/
theorem permuteIsBijective : Obligations.PermuteIsBijective := by
  have hpermute : permute = qrs (doubleRoundQuads 10) := funext (doubleRounds_eq_qrs 10)
  have hfinite := finite_matrix
  rw [Obligations.PermuteIsBijective, hpermute]
  exact (qrs_injective _).bijective_of_finite

end Sys2Proof.Machine
end

section
/-! PROOFS. HChaCha20 (41_subkey.md): the matrix HSUBKEY permutes is the only one with its words, and what a completed HCHACHA20
wrote is a function of the bytes it read. -/

namespace Sys2Proof.Machine

/-! ## The words of HSUBKEY (R121) -/

theorem subkeyMatrix_sigma (key n16 : Bytes) (i : Fin 4) : (subkeyMatrix key n16)[i.val] = sigma[i] := by
  fin_cases i <;> rfl

theorem subkeyMatrix_key (key n16 : Bytes) (j : Fin 8) : (subkeyMatrix key n16)[4 + j.val] = le32 key j := by
  fin_cases j <;> rfl

theorem subkeyMatrix_nonce (key n16 : Bytes) (j : Fin 4) : (subkeyMatrix key n16)[12 + j.val] = le32 n16 j := by
  fin_cases j <;> rfl

/-- A matrix of SIGMA, the key's words and the nonce's words is the one HSUBKEY permutes. -/
theorem eq_subkeyMatrix {key n16 : Bytes} {x : Matrix} (hsigma : ∀ i : Fin 4, x[i.val] = sigma[i])
    (hkey : ∀ j : Fin 8, x[4 + j.val] = le32 key j) (hnonce : ∀ j : Fin 4, x[12 + j.val] = le32 n16 j) :
    x = subkeyMatrix key n16 := by
  refine Vector.ext fun i hi => ?_
  obtain h | ⟨j, hj, rfl⟩ | ⟨j, hj, rfl⟩ : i < 4 ∨ (∃ j < 8, i = 4 + j) ∨ (∃ j < 4, i = 12 + j) := by
    by_cases h4 : i < 4
    · exact .inl h4
    · by_cases h12 : i < 12
      · exact .inr (.inl ⟨i - 4, by omega, by omega⟩)
      · exact .inr (.inr ⟨i - 12, by omega, by omega⟩)
  · exact (hsigma ⟨i, h⟩).trans (subkeyMatrix_sigma key n16 ⟨i, h⟩).symm
  · exact (hkey ⟨j, hj⟩).trans (subkeyMatrix_key key n16 ⟨j, hj⟩).symm
  · exact (hnonce ⟨j, hj⟩).trans (subkeyMatrix_nonce key n16 ⟨j, hj⟩).symm

theorem subkeyBytes_eq_flatMap (x : Matrix) :
    subkeyBytes x = [(0 : Fin 16), 1, 2, 3, 12, 13, 14, 15].flatMap (fun i => bytes32 x[i]) := by
  simp [subkeyBytes]

/-- Settles O32: the matrix of the statement is `subkeyMatrix`, by `eq_subkeyMatrix`, and HSUBKEY serializes its permutation. -/
theorem subkeyIsEightPermutedWords : Obligations.SubkeyIsEightPermutedWords := by
  intro key n16 x h0 h1 h2 h3 hkey hnonce
  have hsigma : ∀ i : Fin 4, x[i.val] = sigma[i] := by
    intro i
    fin_cases i
    · exact h0
    · exact h1
    · exact h2
    · exact h3
  rw [hsubkey, ← eq_subkeyMatrix hsigma hkey hnonce, subkeyBytes_eq_flatMap]

/-! ## The effect of HCHACHA20 (R120, R122) -/

/-- A completed HCHACHA20 leaves at `C` the subkey of the bytes it read, and keeps the cipher state. The two fields are had from the
state by `rw`: unification would evaluate the permutation. -/
theorem exec_hchacha20_completed {s t : State} {a b c : DWord} (hwf : s.mem.wf) (h : exec (.hchacha20 a b c) s = .next t)
    (hf : t.fault = false) :
    t.mem.readBytes c.toNat 32 = hsubkey (s.mem.readBytes a.toNat 32) (s.mem.readBytes b.toNat 16) ∧
      t.cipher = s.cipher := by
  obtain ⟨-, -, -, -, ht⟩ := execHchacha20_completed h hf
  have hmem : t.mem = s.mem.writeBytes c.toNat (s.derivedSubkey a b) := by rw [ht]
  have hcipher : t.cipher = s.cipher := by rw [ht]
  have hback := Memory.readBytes_writeBytes hwf c.toNat (s.derivedSubkey a b)
  rw [s.length_derivedSubkey] at hback
  rw [hmem, hback]
  exact ⟨s.derivedSubkey_eq a b, hcipher⟩

/-- Settles O34: what each of the two wrote is the subkey of its input bytes, by `exec_hchacha20_completed`. -/
theorem hchachaDependsOnInputBytesOnly : Obligations.HchachaDependsOnInputBytesOnly := by
  intro s s' t t' a b c a' b' c' hwf hwf' hkey hnonce _ _ h h' hf hf'
  obtain ⟨hout, hcipher⟩ := exec_hchacha20_completed hwf h hf
  obtain ⟨hout', hcipher'⟩ := exec_hchacha20_completed hwf' h' hf'
  exact ⟨by rw [hout, hout', hkey, hnonce], hcipher, hcipher'⟩

end Sys2Proof.Machine
end

section
/-! PROOFS. Keystream generation (42_keystream.md): INC_CTR as an addition on the number the two counter words make, and the words of
a keystream block. -/

namespace Sys2Proof.Machine

/-! ## The counter's increment (R135) -/

/-- INC_CTR adds to the number of the two counter words, modulo 2^64: what is carried out of `ST[12]` goes into `ST[13]`. -/
theorem Cipher.ctr_add_toNat (c : Cipher) (k : DWord) :
    (c.ctr + k).toNat = (c.st[13].toNat * 2 ^ 32 + c.st[12].toNat + k.toNat) % 2 ^ 64 := by
  rw [BitVec.toNat_add, c.ctr_toNat]

theorem Cipher.incCtr_low_toNat (c : Cipher) (k : DWord) :
    (c.incCtr k).st[12].toNat = (c.st[13].toNat * 2 ^ 32 + c.st[12].toNat + k.toNat) % 2 ^ 64 % 2 ^ 32 :=
  (withCtr_low_toNat c.st _).trans (by rw [c.ctr_add_toNat])

theorem Cipher.incCtr_high_toNat (c : Cipher) (k : DWord) :
    (c.incCtr k).st[13].toNat = (c.st[13].toNat * 2 ^ 32 + c.st[12].toNat + k.toNat) % 2 ^ 64 / 2 ^ 32 :=
  (withCtr_high_toNat c.st _).trans (by rw [c.ctr_add_toNat])

/-- Settles O25: the two words are the halves of the sum `Cipher.ctr_add_toNat`; the rest is the frame of `Cipher.incCtr`. -/
theorem incCtrAddsModuloTwoPow64 : Obligations.IncCtrAddsModuloTwoPow64 := by
  intro c k
  exact ⟨c.incCtr_low_toNat k, c.incCtr_high_toNat k, fun _ h12 h13 => c.incCtr_other k h12 h13, c.incCtr_ks k, c.incCtr_pos k,
    c.incCtr_zero⟩

/-! ## BLOCK (R133, R134) -/

/-- The feed-forward: each word of a keystream block is the permuted word plus the original one. -/
theorem blockWords_getElem (st : Matrix) (i : Fin 16) : (blockWords st)[i] = (permute st)[i] + st[i] :=
  tabulate_getElem _ i.val i.isLt

theorem Cipher.ctr_block_toNat (c : Cipher) : c.block.ctr.toNat = (c.ctr.toNat + 1) % 2 ^ 64 := by
  rw [c.ctr_block, BitVec.toNat_add]
  rfl

/-- Settles O36: `blockWords_getElem` at the matrix before the increment, `Cipher.ctr_block_toNat`, the frame, and
`Cipher.block_congr` for the dependence on `ST` alone. -/
theorem blockAddsOriginalMatrix : Obligations.BlockAddsOriginalMatrix := by
  intro c
  refine ⟨?feedForward, c.ctr_block_toNat, fun _ h12 h13 => c.block_other h12 h13, c.block_pos, ?stAlone⟩
  case feedForward =>
    intro i
    rw [c.block_ks, blockWords_getElem]
  case stAlone =>
    intro d hst
    obtain ⟨hst', hks⟩ := Cipher.block_congr hst
    exact ⟨hks, hst'⟩

end Sys2Proof.Machine
end

section
/-! PROOFS. The stream (43_stream.md): what holds of the cipher state at a stream position, that every byte used, every DISCARD and
every step of the machine keeps it, and what a CRYPT writes there. -/

namespace Sys2Proof

/-! ## A descriptor that decodes is its command's encoding (R74, R75) -/

theorem decode_encode (i : Instr) : decode (encode i) = .ok i := by
  cases i with
  | init a b => exact (Laws.EncodeDecode.init a b).1
  | crypt a b c => exact (Laws.EncodeDecode.crypt a b c).1
  | discard c => exact (Laws.EncodeDecode.discard c).1
  | hchacha20 a b c => exact (Laws.EncodeDecode.hchacha20 a b c).1

/-- With `RSV = 0`, word `D0` is the opcode's byte. -/
theorem Descriptor.d0_of_opcode {d : Descriptor} {op : Opcode} (hop : Opcode.ofByte d.opc = some op) (hr : d.rsv = 0) :
    d.d0 = op.toByte.setWidth 64 := by
  rw [d.d0_eq, hr, Opcode.toByte_of_ofByte hop]
  exact (BitVec.setWidth_eq_append (by decide)).symm

/-- A descriptor that passed every step of decoding is the encoding of what it selects. -/
theorem encode_select_of_accepted {d : Descriptor} {op : Opcode} (hop : Opcode.ofByte d.opc = some op) (hr : d.rsv = 0)
    (hz : op.mustBeZero.find? (fun w => d.word w != 0) = none) : encode (d.select op) = d := by
  have hd0 := Descriptor.d0_of_opcode hop hr
  obtain ⟨d0, d1, d2, d3⟩ := d
  subst hd0
  cases op with
  | init =>
    obtain rfl : d3 = 0 := by simpa [Opcode.mustBeZero, Descriptor.word] using hz
    rfl
  | crypt => rfl
  | discard =>
    obtain ⟨rfl, rfl⟩ : d1 = 0 ∧ d2 = 0 := by simpa [Opcode.mustBeZero, Descriptor.word] using hz
    rfl
  | hchacha20 => rfl

theorem encode_of_decode {d : Descriptor} {i : Instr} (h : decode d = .ok i) : encode i = d := by
  rcases decode_cases d with ⟨-, e⟩ | ⟨op, -, -, e⟩ | ⟨op, w, -, -, -, e⟩ | ⟨op, hop, hr, hz, e⟩ <;> rw [e] at h
  · cases h
  · cases h
  · cases h
  · cases h
    exact encode_select_of_accepted hop hr hz

end Sys2Proof

namespace Sys2Proof.Machine

/-! ## The cipher state at a stream position (R155, R156) -/

/-- `KS` of a BLOCK is BLOCKFN of the counter it began at (42_keystream.md R134). -/
theorem Cipher.blockWords_st (c : Cipher) : blockWords c.st = blockFn c.st c.ctr := by
  rw [blockFn, ← Cipher.setCtr_st, c.setCtr_ctr]

/-- The cipher state at position `p` of the stream of matrix `m`: R155 in closed form, with the block number modulo 2^64 as the
counter counts it, so that no bound on `p` is needed. `State.StreamAt.onStream` and `State.OnStream.streamAt` tie it to the
model's `State.StreamAt`. -/
structure Cipher.AtPosition (m : Matrix) (p : Nat) (c : Cipher) : Prop where
  matrix : ∀ i : Fin 16, i ≠ 12 → i ≠ 13 → c.st[i] = m[i]
  /-- The blocks begun by `p` bytes. -/
  ctr : c.ctr = BitVec.ofNat 64 ((p + 63) / 64)
  /-- 64 at a block boundary, and otherwise the bytes used of the block in use. -/
  pos : c.pos.toNat = (p + 63) % 64 + 1
  ks : p % 64 ≠ 0 → c.ks = blockFn m (BitVec.ofNat 64 (p / 64))

namespace Cipher.AtPosition

variable {c d : Cipher} {m : Matrix} {p : Nat}

theorem pos_le (h : c.AtPosition m p) : c.pos.toNat ≤ 64 := by
  have := h.pos
  omega

theorem start (key nonce : Bytes) (c : Cipher) : (c.start key nonce).AtPosition (initMatrix key nonce) 0 where
  matrix _ _ _ := by rw [c.start_st key nonce]
  ctr := c.ctr_start key nonce
  pos := by rw [c.start_pos key nonce]; rfl
  ks h := absurd rfl h

/-- What no keystream byte tells apart is at the same position. -/
theorem congr (h : c.AtPosition m p) (hsame : c.Same d) : d.AtPosition m p where
  matrix i h12 h13 := hsame.st ▸ h.matrix i h12 h13
  ctr := Cipher.ctr_congr hsame.st ▸ h.ctr
  pos := hsame.pos ▸ h.pos
  ks hp := by
    have hopen : c.pos ≠ 64 := by
      rw [ne_eq, pos_eq_64, h.pos]
      omega
    rw [← hsame.ks hopen, h.ks hp]

/-- The regeneration before byte `p` of the stream leaves that byte's block in `KS`, the cursor at the byte, and the counter at the
next block. -/
theorem refill (h : c.AtPosition m p) :
    c.refill.ks = blockFn m (BitVec.ofNat 64 (p / 64)) ∧ c.refill.pos.toNat = p % 64 ∧
      c.refill.ctr = BitVec.ofNat 64 (p / 64 + 1) := by
  have hpos := h.pos
  by_cases hp : p % 64 = 0
  · have hdiv : (p + 63) / 64 = p / 64 := by omega
    rw [Cipher.refill_exhausted (pos_eq_64.mpr (by omega))]
    refine ⟨?_, hp.symm, ?_⟩
    · rw [← hdiv, ← h.ctr, ← blockFn_congr h.matrix]
      exact c.blockWords_st
    · rw [BitVec.ofNat_add, ← hdiv, ← h.ctr]
      exact c.ctr_block
  · have hdiv : (p + 63) / 64 = p / 64 + 1 := by omega
    rw [Cipher.refill_open (by rw [ne_eq, pos_eq_64]; omega)]
    exact ⟨h.ks hp, by omega, hdiv ▸ h.ctr⟩

/-- The next keystream byte at position `p` is byte `p mod 64` of block `p div 64` (R156). -/
theorem nextByte (h : c.AtPosition m p) :
    c.nextByte = ksByte (blockFn m (BitVec.ofNat 64 (p / 64))) (p % 64) := by
  obtain ⟨hks, hpos, -⟩ := h.refill
  rw [Cipher.nextByte, hks, hpos]

theorem useOne (h : c.AtPosition m p) : c.refill.advance.AtPosition m (p + 1) := by
  obtain ⟨hks, hpos, hctr⟩ := h.refill
  refine ⟨fun i h12 h13 => ?matrix, ?ctr, ?pos, fun hp => ?ks⟩
  case matrix => exact (c.use_other 1 h12 h13).trans (h.matrix i h12 h13)
  case ctr =>
    rw [show (p + 1 + 63) / 64 = p / 64 + 1 by omega, ← hctr]
    exact Cipher.ctr_congr rfl
  case pos =>
    rw [Cipher.advance_pos, pos_toNat_advance (by omega), hpos]
    omega
  case ks => rw [Cipher.advance_ks, hks, show (p + 1) / 64 = p / 64 by omega]

theorem use (h : c.AtPosition m p) (n : Nat) : (c.use n).AtPosition m (p + n) := by
  induction n with
  | zero => exact h
  | succ n ih =>
    rw [Cipher.use_succ]
    exact ih.useOne

/-- At one position of one stream, the keystream is one. -/
theorem keystream_eq (hc : c.AtPosition m p) (hd : d.AtPosition m p) (n : Nat) : c.keystream n = d.keystream n := by
  induction n generalizing c d p with
  | zero => rfl
  | succ n ih => rw [Cipher.keystream, Cipher.keystream, hc.nextByte, hd.nextByte, ih hc.useOne hd.useOne]

end Cipher.AtPosition

/-! ## DISCARD against CRYPT (R154) -/

/-- Discarding bytes is using them: no later keystream byte tells the two apart. -/
theorem Cipher.discard_same_use {c : Cipher} (hp : c.pos.toNat ≤ 64) (n : Nat) : (c.discard n).Same (c.use n) := by
  induction n with
  | zero =>
    have hnone : c.discard 0 = c := by
      rw [Cipher.discard_within hp (Nat.zero_le _), Cipher.consume, Nat.add_zero, BitVec.ofNat_toNat, BitVec.setWidth_eq]
    rw [hnone]
    exact .refl c
  | succ n ih =>
    rw [Cipher.use_succ, ← ih.refill]
    exact Cipher.discard_succ hp n

theorem Cipher.AtPosition.discard {c : Cipher} {m : Matrix} {p : Nat} (h : c.AtPosition m p) (n : Nat) :
    (c.discard n).AtPosition m (p + n) :=
  (h.use n).congr (Cipher.discard_same_use h.pos_le n).symm

/-- Settles O42: `Cipher.discard_same_use` at the cipher states the two commands leave. -/
theorem discardMatchesCrypt : Obligations.DiscardMatchesCrypt := by
  intro s t u a b c hf hi hpos hcrypt htf hdiscard
  obtain ⟨-, -, -, -, -, ht⟩ := execCrypt_completed hcrypt htf
  rcases execDiscard_cases c s with ⟨hni, -⟩ | ⟨-, e⟩
  · exact absurd hni (by simp [hi])
  · obtain rfl := Host.Outcome.next.inj (e.symm.trans hdiscard)
    have hsame := Cipher.discard_same_use hpos c.toNat
    have htc : t.cipher = s.cipher.use c.toNat := by rw [ht]
    rw [htc]
    refine ⟨hsame.st, hsame.pos, fun hlt => hsame.ks ?_, fun n => (hsame.use n).nextByte⟩
    rw [hsame.pos, ne_eq, pos_eq_64]
    omega

/-! ## The machine at a stream position -/

/-- `State.StreamAt` without its bound: `INITED = 1`, and the cipher state at position `p`, block numbers modulo 2^64. -/
structure State.OnStream (m : Matrix) (p : Nat) (s : State) : Prop where
  inited : s.inited = true
  cipher : s.cipher.AtPosition m p

theorem State.StreamAt.onStream {s : State} {m : Matrix} {p : Nat} (h : s.StreamAt m p) : s.OnStream m p := by
  obtain ⟨hi, hmatrix, ⟨hlow, hhigh⟩, hexhausted, hpartly⟩ := h
  have hctr : s.cipher.ctr = BitVec.ofNat 64 s.cipher.ctr.toNat := by rw [BitVec.ofNat_toNat, BitVec.setWidth_eq]
  by_cases h64 : s.cipher.pos.toNat = 64
  · have hp := hexhausted h64
    exact ⟨hi, hmatrix, by rw [hctr]; congr 1; omega, by omega, fun h => absurd h (by omega)⟩
  · obtain ⟨hone, hp, hks⟩ := hpartly (by omega)
    refine ⟨hi, hmatrix, by rw [hctr]; congr 1; omega, by omega, fun _ => ?_⟩
    rw [hks, show p / 64 = s.cipher.ctr.toNat - 1 by omega]

theorem State.OnStream.streamAt {s : State} {m : Matrix} {p : Nat} (h : s.OnStream m p) (hbound : (p + 63) / 64 < 2 ^ 64) :
    s.StreamAt m p := by
  obtain ⟨hi, hmatrix, hctr, hpos, hks⟩ := h
  have hctr : s.cipher.ctr.toNat = (p + 63) / 64 := by rw [hctr, BitVec.toNat_ofNat, Nat.mod_eq_of_lt hbound]
  refine ⟨hi, hmatrix, by omega, fun _ => by omega, fun _ => ⟨by omega, by omega, ?_⟩⟩
  rw [hks (by omega), show s.cipher.ctr.toNat - 1 = p / 64 by omega]

/-! ## Commands, steps and runs (R131, R155) -/

theorem exec_init_onStream {s t : State} {a b : DWord} (h : exec (.init a b) s = .next t) (hf : t.fault = false) :
    t.OnStream (initMatrix (s.memRead a 32) (s.memRead b 24)) 0 := by
  obtain ⟨-, -, -, ht⟩ := execInit_completed h hf
  have hcipher : t.cipher = s.cipher.start (s.memRead a 32) (s.memRead b 24) := by rw [ht]
  exact ⟨by rw [ht], hcipher ▸ .start ..⟩

/-- A command that completes, and is not INIT, leads to the position it moves to. -/
theorem exec_onStream {i : Instr} {s t : State} {m : Matrix} {p : Nat} (hs : s.OnStream m p) (hi : ∀ a b, i ≠ .init a b)
    (h : exec i s = .next t) (hf : t.fault = false) : t.OnStream m (positionAfterCommand p i) := by
  refine ⟨(exec_inited hi h).trans hs.inited, ?_⟩
  cases i with
  | init a b => exact absurd rfl (hi a b)
  | crypt a b c =>
    obtain ⟨-, -, -, -, -, ht⟩ := execCrypt_completed h hf
    rw [ht]
    exact hs.cipher.use c.toNat
  | discard c =>
    obtain ⟨-, -, ht⟩ := execDiscard_completed h hf
    rw [ht]
    exact hs.cipher.discard c.toNat
  | hchacha20 a b c =>
    obtain ⟨-, -, -, -, ht⟩ := execHchacha20_completed h hf
    have hcipher : t.cipher = s.cipher := by rw [ht]
    rw [hcipher]
    exact hs.cipher

theorem positionAfter_fault {t : State} (hf : t.fault = true) (p : Nat) (x : HostAction) : x.positionAfter t p = p := by
  cases x with
  | submit d => cases hd : decode d <;> simp [HostAction.positionAfter, hd, hf]
  | _ => rfl

theorem positionAfter_completed {t : State} {d : Descriptor} {i : Instr} (hd : decode d = .ok i) (hf : t.fault = false) (p : Nat) :
    (HostAction.submit d).positionAfter t p = positionAfterCommand p i := by
  simp [HostAction.positionAfter, hd, hf]

/-- Every step at an interaction that is neither RESET nor an INIT that completes leads to the position it moves to. -/
theorem step_onStream {s t : State} {m : Matrix} {p : Nat} {x : HostAction} {rest : List HostAction} (hs : s.OnStream m p)
    (h : step s = .next t) (hx : s.script = x :: rest) (hreset : x ≠ .reset)
    (hinit : ∀ d a b, x = .submit d → decode d = .ok (.init a b) → t.fault = true) : t.OnStream m (x.positionAfter t p) := by
  rcases step_next_cases h with ⟨hnil, -⟩ | ⟨d, l, hd, hf, -, hend⟩ | ⟨i, l, hr, rfl⟩ | ⟨a, l, hr, -, rfl⟩ | ⟨a, v, l, hw, -, rfl⟩ |
    ⟨l, hr, -⟩
  · exact absurd (hx.symm.trans hnil) (List.cons_ne_nil x rest)
  · obtain ⟨rfl, -⟩ := List.cons.inj (hx.symm.trans hd)
    rcases hend with ⟨cause, info, rfl⟩ | ⟨i, c, mem, b, hdec, hexec, ht⟩
    · rw [positionAfter_fault rfl]
      exact ⟨hs.inited, hs.cipher⟩
    · have htf : t.fault = false := by rw [ht]; exact hf
      rw [positionAfter_completed hdec htf]
      refine exec_onStream ?kept (fun a b hi => ?notInit) hexec htf
      case kept => exact ⟨hs.inited, hs.cipher⟩
      case notInit => exact absurd (hinit d a b rfl (hi ▸ hdec)) (by simp [htf])
  · obtain ⟨rfl, -⟩ := List.cons.inj (hx.symm.trans hr)
    exact ⟨hs.inited, hs.cipher⟩
  · obtain ⟨rfl, -⟩ := List.cons.inj (hx.symm.trans hr)
    exact ⟨hs.inited, hs.cipher⟩
  · obtain ⟨rfl, -⟩ := List.cons.inj (hx.symm.trans hw)
    exact ⟨hs.inited, hs.cipher⟩
  · exact absurd (List.cons.inj (hx.symm.trans hr)).1 hreset

/-- Settles O44: a completed INIT by `exec_init_onStream`, every other step by `step_onStream`, and the three clauses of R155 from
the closed form at the new position. -/
theorem streamPositionKeptByEveryStep : Obligations.StreamPositionKeptByEveryStep := by
  refine ⟨?init, fun s t m p hs h => ⟨fun hnil => ?idle, fun x rest hx hreset hinit hbound => ?action⟩⟩
  case init =>
    intro s t a b rest hs h hf
    exact (exec_init_onStream (step_submit_decoded h hs (decode_encode _)) hf).streamAt (by decide)
  case idle =>
    obtain rfl := Host.Outcome.next.inj ((step_idle hnil).symm.trans h)
    exact hs
  case action =>
    refine (step_onStream hs.onStream h hx hreset fun d a b hd hdec => ?_).streamAt hbound
    exact hinit a b (by rw [hd, encode_of_decode hdec])

/-- An interaction is a step of the machine that has it before its script. -/
theorem interact_eq_step (x : HostAction) (s : State) : interact x s = step { s with script := x :: s.script } := rfl

theorem interact_onStream {s t : State} {m : Matrix} {p : Nat} {x : HostAction} (hs : s.OnStream m p) (hx : x.keepsStream)
    (h : interact x s = .next t) : t.OnStream m (x.positionAfter t p) := by
  refine step_onStream (s := { s with script := x :: s.script }) ⟨hs.inited, hs.cipher⟩ h rfl ?reset ?init
  case reset => exact fun hr => (hr ▸ hx : HostAction.reset.keepsStream)
  case init =>
    intro d a b hd hdec
    exact absurd hdec ((hd ▸ hx : (HostAction.submit d).keepsStream) a b)

theorem runHost_cons {x : HostAction} {l : List HostAction} {s t : State} {p q : Nat} (h : runHost (x :: l) s p = some (t, q)) :
    ∃ u, interact x s = .next u ∧ runHost l u (x.positionAfter u p) = some (t, q) := by
  rw [runHost] at h
  split at h
  · next u hu => exact ⟨u, hu, h⟩
  · cases h
  · cases h

theorem runHost_onStream {l : List HostAction} {s t : State} {m : Matrix} {p q : Nat} (hs : s.OnStream m p)
    (hl : ∀ x ∈ l, x.keepsStream) (h : runHost l s p = some (t, q)) : t.OnStream m q := by
  induction l generalizing s p with
  | nil =>
    cases h
    exact hs
  | cons x l ih =>
    obtain ⟨u, hu, hrest⟩ := runHost_cons h
    obtain ⟨hx, hl⟩ := List.forall_mem_cons.mp hl
    exact ih (interact_onStream hs hx hu) hl hrest

theorem exec_of_completes {i : Instr} {s t : State} (h : completes i s t) : exec i s.accept = .next t := by
  obtain ⟨hsub, -⟩ := h
  obtain ⟨hf, hb, -⟩ := hostSubmit_next hsub
  rw [← hostSubmit_decoded hf hb (decode_encode i), hsub]

/-- A run after a completed INIT is on the stream of the key and nonce bytes that INIT read. -/
theorem run_after_init_onStream {s u t : State} {a b : DWord} {l : List HostAction} {p : Nat} (hinit : completes (.init a b) s u)
    (hl : ∀ x ∈ l, x.keepsStream) (hrun : runHost l u 0 = some (t, p)) :
    t.OnStream (initMatrix (s.memRead a 32) (s.memRead b 24)) p :=
  runHost_onStream (exec_init_onStream (s := s.accept) (exec_of_completes hinit) hinit.2) hl hrun

/-- Settles O43: the run stays on the stream INIT made, and R155's clauses follow from the closed form. -/
theorem streamPositionInvariant : Obligations.StreamPositionInvariant := by
  intro s u t a b l p hinit hl hrun hbound
  obtain ⟨-, -, ⟨hlow, hhigh⟩, hexhausted, hpartly⟩ := (run_after_init_onStream hinit hl hrun).streamAt hbound
  exact ⟨hlow, hhigh, hexhausted, hpartly⟩

/-! ## What a CRYPT writes at a stream position (R152, R156) -/

/-- Every command leaves memory as it was, or with one byte string stored. -/
theorem exec_mem_wf {i : Instr} {s t : State} (hwf : s.mem.wf) (h : exec i s = .next t) : t.mem.wf := by
  have hself : agreeOnReads i s.mem s.mem := fun _ _ _ _ => rfl
  rcases exec_alike i s with ⟨cause, info, e⟩ | ⟨-, c, b, e⟩ | ⟨a, bs, -, c, b, e⟩
  · obtain rfl := Host.Outcome.next.inj ((e s.mem).symm.trans h)
    exact hwf
  · obtain rfl := Host.Outcome.next.inj ((e s.mem hself).symm.trans h)
    exact hwf
  · obtain rfl := Host.Outcome.next.inj ((e s.mem hself).symm.trans h)
    exact Memory.wf_writeBytes hwf a.toNat bs

theorem step_mem_wf {s t : State} (hwf : s.mem.wf) (h : step s = .next t) : t.mem.wf := by
  rcases step_next_cases h with ⟨-, rfl⟩ | ⟨d, l, -, -, -, hend⟩ | ⟨i, l, -, rfl⟩ | ⟨a, l, -, -, rfl⟩ | ⟨a, v, l, -, -, rfl⟩ |
    ⟨l, -, rfl⟩
  · exact hwf
  · rcases hend with ⟨cause, info, rfl⟩ | ⟨i, c, m, b, -, hexec, -⟩
    · exact hwf
    · refine exec_mem_wf ?_ hexec
      exact hwf
  · exact hwf
  · exact hwf
  · exact Memory.wf_write hwf a.toNat v
  · exact hwf

theorem runHost_mem_wf {l : List HostAction} {s t : State} {p q : Nat} (hwf : s.mem.wf) (h : runHost l s p = some (t, q)) :
    t.mem.wf := by
  induction l generalizing s p with
  | nil =>
    cases h
    exact hwf
  | cons x l ih =>
    obtain ⟨u, hu, hrest⟩ := runHost_cons h
    exact ih (step_mem_wf (s := { s with script := x :: s.script }) hwf hu) hrest

/-- Memory is canonical after a completed command and a run. -/
theorem run_after_command_mem_wf {i : Instr} {s u t : State} {l : List HostAction} {p : Nat} (hwf : s.mem.wf)
    (hi : completes i s u) (hrun : runHost l u 0 = some (t, p)) : t.mem.wf :=
  runHost_mem_wf (exec_mem_wf (s := s.accept) hwf (exec_of_completes hi)) hrun

/-- A CRYPT that completes leaves in its output range its input XORed with the keystream. -/
theorem memRead_crypt {s t : State} {a b c : DWord} (hwf : s.mem.wf) (h : completes (.crypt a b c) s t) :
    t.memRead b c.toNat = xorBytes (s.memRead a c.toNat) (s.cipher.keystream c.toNat) := by
  obtain ⟨-, -, -, -, -, ht⟩ := execCrypt_completed (exec_of_completes h) h.2
  have hmem : t.mem = s.mem.writeBytes b.toNat (xorBytes (s.memRead a c.toNat) (s.cipher.keystream c.toNat)) := by
    rw [ht]
    rfl
  have hback := Memory.readBytes_writeBytes hwf b.toNat (xorBytes (s.memRead a c.toNat) (s.cipher.keystream c.toNat))
  have hlen : (xorBytes (s.memRead a c.toNat) (s.cipher.keystream c.toNat)).length = c.toNat := length_cryptOutput ..
  rwa [hlen, ← hmem] at hback

/-- Settles O45: byte `i` of `memRead_crypt`, and the keystream byte of position `p + i` by `Cipher.AtPosition.nextByte`. -/
theorem cryptOutputIsStreamFunction : Obligations.CryptOutputIsStreamFunction := by
  intro s u t v a b x y c l p hwf hinit hl hrun hcrypt i hi
  have hbyte := (((run_after_init_onStream hinit hl hrun).cipher).use i).nextByte
  have hout := memRead_crypt (run_after_command_mem_wf hwf hinit hrun) hcrypt
  calc v.mem.read (y.toNat + i)
      = (v.memRead y c.toNat).getD i 0 := (Memory.getD_readBytes _ _ _ _ hi).symm
    _ = t.mem.read (x.toNat + i) ^^^ (t.cipher.use i).nextByte := by rw [hout]; exact getD_cryptOutput _ _ hi
    _ = t.mem.read (x.toNat + i) ^^^ streamByte (s.memRead a 32) (s.memRead b 24) (p + i) := by rw [hbyte]; rfl

/-- XOR with the same bytes again gives the first bytes back. -/
theorem xorBytes_xorBytes_cancel {x k : Bytes} (h : x.length = k.length) : xorBytes (xorBytes x k) k = x := by
  induction x generalizing k with
  | nil => rfl
  | cons v x ih =>
    cases k with
    | nil => cases h
    | cons w k =>
      have hhead : v ^^^ w ^^^ w = v := by rw [BitVec.xor_assoc, BitVec.xor_self, BitVec.xor_zero]
      have htail : xorBytes (xorBytes x k) k = x := ih (Nat.succ.inj h)
      exact congrArg₂ List.cons hhead htail

/-- Settles O46: both machines are at one position of one stream, so their CRYPTs use one keystream, and XOR cancels. -/
theorem cryptIsSelfInverse : Obligations.CryptIsSelfInverse := by
  intro s s0 s1 s2 u u0 u1 u2 k n a b k' n' b' d c l l' p hwf hwf' hl hl' hinit hrun hcrypt hinit' hkey hnonce hrun' hinput hcrypt'
  have hs1 := run_after_init_onStream hinit hl hrun
  have hu1 := run_after_init_onStream hinit' hl' hrun'
  rw [hkey, hnonce] at hu1
  have hlen : (s1.memRead a c.toNat).length = (s1.cipher.keystream c.toNat).length :=
    (Memory.length_readBytes _ _ _).trans (s1.cipher.length_keystream _).symm
  rw [memRead_crypt (run_after_command_mem_wf hwf' hinit' hrun') hcrypt', hinput,
    memRead_crypt (run_after_command_mem_wf hwf hinit hrun) hcrypt, hu1.cipher.keystream_eq hs1.cipher,
    xorBytes_xorBytes_cancel hlen]

end Sys2Proof.Machine
end

section
/-! PROOFS. Faults (60_exceptions.md): the checks of a command in their order, that a command and a submission enter the fault of the
first that fails and complete where none does, and that fault entry keeps everything but the fault record. -/

namespace Sys2Proof.Machine

/-! ## The admission tests in the words of the statements (20_memory.md R55, 43_stream.md R151) -/

theorem valid_eq_fits (s : State) (a : DWord) (n : Nat) : s.valid a n = decide (s.fits a n) := by
  rw [State.valid, decide_eq_decide]
  omega

theorem overlap_eq_partlyOverlap (a b : DWord) (n : Nat) : overlap a b n = decide (partlyOverlap a b n) := rfl

/-! ## Ordered checks (R180) -/

/-- The cause and information word of the first check that fails; `firstFailure` is this of `faultChecks`. -/
def firstFailing (cs : List (Bool × Cause × DWord)) : Option (Cause × DWord) :=
  (cs.find? (fun c => c.1)).map (fun c => c.2)

theorem firstFailure_eq (d : Descriptor) (s : State) : firstFailure d s = firstFailing (faultChecks d s) := rfl

@[simp] theorem firstFailing_nil : firstFailing [] = none := rfl

@[simp] theorem firstFailing_cons (fails : Bool) (x : Cause × DWord) (cs : List (Bool × Cause × DWord)) :
    firstFailing ((fails, x) :: cs) = if fails then some x else firstFailing cs := by
  cases fails <;> rfl

theorem mem_of_firstFailing {cs : List (Bool × Cause × DWord)} {x : Cause × DWord} (h : firstFailing cs = some x) :
    (true, x) ∈ cs := by
  obtain ⟨⟨fails, y⟩, hfind, rfl⟩ := Option.map_eq_some_iff.mp h
  obtain rfl : fails = true := List.find?_some hfind
  exact List.mem_of_find?_eq_some hfind

/-- The outcome at `s` of something checked in order: the fault of the first failure, and completion where there is none. -/
structure ReportsFirst (failure : Option (Cause × DWord)) (s : State) (o : Host.Outcome State Fault Refusal) : Prop where
  faults : ∀ cause info, failure = some (cause, info) → o = .next (s.faultEntry cause info)
  completes : failure = none → ∃ t, o = .next t ∧ t.fault = s.fault ∧ t.busy = false

theorem ReportsFirst.of_raise {failure : Option (Cause × DWord)} {s : State} {o : Host.Outcome State Fault Refusal}
    {cause : Cause} {info : DWord} (hfail : failure = some (cause, info)) (ho : o = raise cause info s) :
    ReportsFirst failure s o := by
  subst hfail ho
  refine ⟨fun cause' info' h => ?_, nofun⟩
  cases h
  rfl

theorem ReportsFirst.of_next {failure : Option (Cause × DWord)} {s t : State} {o : Host.Outcome State Fault Refusal}
    (hfail : failure = none) (ho : o = .next t) (hfault : t.fault = s.fault) (hbusy : t.busy = false) :
    ReportsFirst failure s o := by
  subst hfail
  exact ⟨nofun, fun _ => ⟨t, ho, hfault, hbusy⟩⟩

/-! ## The checks of a command (R176 to R178) -/

/-- The checks a decoded command makes, in order, each with the fault it raises. `exec_reports` ties them to `exec`, and
`firstFailure_select` to the list of R180. -/
def commandChecks (s : State) : Instr → List (Bool × Cause × DWord)
  | .init a b => [(!s.valid a 32, .access, 1), (!s.valid b 24, .access, 2)]
  | .crypt a b c => [(!s.inited, .notInitialized, 0), (!s.valid a c.toNat, .access, 1), (!s.valid b c.toNat, .access, 2),
      (overlap a b c.toNat, .overlap, 2)]
  | .discard _ => [(!s.inited, .notInitialized, 0)]
  | .hchacha20 a b c => [(!s.valid a 32, .access, 1), (!s.valid b 16, .access, 2), (!s.valid c 32, .access, 3)]

/-- A command enters the fault of its first check that fails, and completes where none does. -/
theorem exec_reports (i : Instr) (s : State) : ReportsFirst (firstFailing (commandChecks s i)) s (exec i s) := by
  cases i with
  | init a b =>
    rcases execInit_cases a b s with ⟨ha, e⟩ | ⟨ha, hb, e⟩ | ⟨ha, hb, e⟩
    · exact .of_raise (by simp [commandChecks, ha]) e
    · exact .of_raise (by simp [commandChecks, ha, hb]) e
    · exact .of_next (by simp [commandChecks, ha, hb]) e rfl rfl
  | crypt a b c =>
    rcases execCrypt_cases a b c s with ⟨hi, e⟩ | ⟨hi, ha, e⟩ | ⟨hi, ha, hb, e⟩ | ⟨hi, ha, hb, ho, e⟩ | ⟨hi, ha, hb, ho, e⟩
    · exact .of_raise (by simp [commandChecks, hi]) e
    · exact .of_raise (by simp [commandChecks, hi, ha]) e
    · exact .of_raise (by simp [commandChecks, hi, ha, hb]) e
    · exact .of_raise (by simp [commandChecks, hi, ha, hb, ho]) e
    · exact .of_next (by simp [commandChecks, hi, ha, hb, ho]) e rfl rfl
  | discard c =>
    rcases execDiscard_cases c s with ⟨hi, e⟩ | ⟨hi, e⟩
    · exact .of_raise (by simp [commandChecks, hi]) e
    · exact .of_next (by simp [commandChecks, hi]) e rfl rfl
  | hchacha20 a b c =>
    rcases execHchacha20_cases a b c s with ⟨ha, e⟩ | ⟨ha, hb, e⟩ | ⟨ha, hb, hc, e⟩ | ⟨ha, hb, hc, e⟩
    · exact .of_raise (by simp [commandChecks, ha]) e
    · exact .of_raise (by simp [commandChecks, ha, hb]) e
    · exact .of_raise (by simp [commandChecks, ha, hb, hc]) e
    · exact .of_next (by simp [commandChecks, ha, hb, hc]) e rfl rfl

theorem exec_faultEntry {i : Instr} {s : State} {cause : Cause} {info : DWord}
    (h : firstFailing (commandChecks s i) = some (cause, info)) : exec i s = .next (s.faultEntry cause info) :=
  (exec_reports i s).faults cause info h

/-- A command that ends with a fault, from a state without one, raised the fault of a check that fails. -/
theorem exec_fault_of_check {i : Instr} {s t : State} (hs : s.fault = false) (h : exec i s = .next t) (ht : t.fault = true) :
    ∃ cause info, (true, cause, info) ∈ commandChecks s i ∧ t = s.faultEntry cause info := by
  cases hfail : firstFailing (commandChecks s i) with
  | none =>
    obtain ⟨u, hu, hfault, -⟩ := (exec_reports i s).completes hfail
    obtain rfl := Host.Outcome.next.inj (hu.symm.trans h)
    simp [hs, ht] at hfault
  | some x =>
    exact ⟨x.1, x.2, mem_of_firstFailing hfail, (Host.Outcome.next.inj ((exec_faultEntry hfail).symm.trans h)).symm⟩

/-! ## The first failure of a descriptor, along the answers of `decode` (R175, R179, R180) -/

theorem opcodeValue_of_ofByte {d : Descriptor} {op : Opcode} (h : Opcode.ofByte d.opc = some op) :
    opcodeValue d = op.toByte.toNat := by
  rw [Opcode.toByte_of_ofByte h, d.opc_toNat]

theorem opcodeValue_of_ofByte_none {d : Descriptor} (h : Opcode.ofByte d.opc = none) :
    opcodeValue d = 0 ∨ 5 ≤ opcodeValue d := by
  rwa [Opcode.ofByte_eq_none, d.opc_toNat] at h

theorem toByte_toNat_assigned (op : Opcode) : ¬ (op.toByte.toNat = 0 ∨ 5 ≤ op.toByte.toNat) := by
  cases op <;> decide

theorem rsv_eq_zero_iff (d : Descriptor) : d.rsv = 0 ↔ d.d0.toNat / 256 = 0 := by
  rw [← d.rsv_toNat, BitVec.toNat_eq]
  rfl

theorem firstFailure_illegalOpcode {d : Descriptor} (s : State) (h : opcodeValue d = 0 ∨ 5 ≤ opcodeValue d) :
    firstFailure d s = some (.illegalOpcode, d.d0) := by
  rw [firstFailure_eq, faultChecks, firstFailing_cons, if_pos (decide_eq_true h)]

theorem firstFailure_reservedBits {d : Descriptor} (s : State) (hop : ¬ (opcodeValue d = 0 ∨ 5 ≤ opcodeValue d))
    (hr : d.d0.toNat / 256 ≠ 0) : firstFailure d s = some (.reservedNonzero, 0) := by
  rw [firstFailure_eq, faultChecks, firstFailing_cons, if_neg (by simpa using hop), firstFailing_cons, if_pos (decide_eq_true hr)]

/-- The lowest operand word that must be 0 and is not. -/
theorem firstFailure_unusedOperand {d : Descriptor} {op : Opcode} {w : Fin 4} (s : State) (hop : opcodeValue d = op.toByte.toNat)
    (hr : d.d0.toNat / 256 = 0) (hw : op.mustBeZero.find? (fun w => d.word w != 0) = some w) :
    firstFailure d s = some (.reservedNonzero, BitVec.ofNat 64 w.val) := by
  cases op with
  | init =>
    obtain ⟨h3, rfl⟩ : d.d3 ≠ 0#64 ∧ 3 = w := by simpa [Opcode.mustBeZero, Descriptor.word] using hw
    simp [firstFailure_eq, faultChecks, hop, hr, Opcode.toByte, h3]
  | crypt => cases hw
  | discard =>
    by_cases h1 : d.d1 = 0#64
    · obtain ⟨h2, rfl⟩ : d.d2 ≠ 0#64 ∧ 2 = w := by simpa [Opcode.mustBeZero, Descriptor.word, h1] using hw
      simp [firstFailure_eq, faultChecks, hop, hr, Opcode.toByte, h1, h2]
    · obtain rfl : 1 = w := by simpa [Opcode.mustBeZero, Descriptor.word, h1] using hw
      simp [firstFailure_eq, faultChecks, hop, hr, Opcode.toByte, h1]
  | hchacha20 => cases hw

/-- Past decoding, the checks left are those of the command. -/
theorem firstFailure_select {d : Descriptor} {op : Opcode} (s : State) (hop : opcodeValue d = op.toByte.toNat)
    (hr : d.d0.toNat / 256 = 0) (hw : op.mustBeZero.find? (fun w => d.word w != 0) = none) :
    firstFailure d s = firstFailing (commandChecks s (d.select op)) := by
  cases op with
  | init =>
    have h3 : d.d3 = 0 := by simpa [Opcode.mustBeZero, Descriptor.word] using hw
    change _ = firstFailing (commandChecks s (.init d.d1 d.d2))
    simp [firstFailure_eq, faultChecks, commandChecks, hop, hr, h3, Opcode.toByte, valid_eq_fits]
  | crypt =>
    change _ = firstFailing (commandChecks s (.crypt d.d1 d.d2 d.d3))
    simp [firstFailure_eq, faultChecks, commandChecks, hop, hr, Opcode.toByte, valid_eq_fits, overlap_eq_partlyOverlap]
  | discard =>
    obtain ⟨h1, h2⟩ : d.d1 = 0 ∧ d.d2 = 0 := by simpa [Opcode.mustBeZero, Descriptor.word] using hw
    change _ = firstFailing (commandChecks s (.discard d.d3))
    simp [firstFailure_eq, faultChecks, commandChecks, hop, hr, h1, h2, Opcode.toByte]
  | hchacha20 =>
    change _ = firstFailing (commandChecks s (.hchacha20 d.d1 d.d2 d.d3))
    simp [firstFailure_eq, faultChecks, commandChecks, hop, hr, Opcode.toByte, valid_eq_fits]

/-- No check of a command looks at what acceptance changes. -/
theorem commandChecks_accept (i : Instr) (s : State) : commandChecks s.accept i = commandChecks s i := by
  cases i <;> rfl

/-- An accepted descriptor enters the fault of its first check that fails, and completes where none does. -/
theorem hostSubmit_reports {s : State} (d : Descriptor) (hf : s.fault = false) (hb : s.busy = false) :
    ReportsFirst (firstFailure d s) s.accept (hostSubmit d s) := by
  rcases decode_cases d with ⟨hop, e⟩ | ⟨op, hop, hr, e⟩ | ⟨op, w, hop, hr, hw, e⟩ | ⟨op, hop, hr, hw, e⟩
  · exact .of_raise (firstFailure_illegalOpcode s (opcodeValue_of_ofByte_none hop)) (hostSubmit_rejected hf hb e)
  · have hval : ¬ (opcodeValue d = 0 ∨ 5 ≤ opcodeValue d) := opcodeValue_of_ofByte hop ▸ toByte_toNat_assigned op
    exact .of_raise (firstFailure_reservedBits s hval (mt (rsv_eq_zero_iff d).mpr hr)) (hostSubmit_rejected hf hb e)
  · exact .of_raise (firstFailure_unusedOperand s (opcodeValue_of_ofByte hop) ((rsv_eq_zero_iff d).mp hr) hw)
      (hostSubmit_rejected hf hb e)
  · rw [firstFailure_select s (opcodeValue_of_ofByte hop) ((rsv_eq_zero_iff d).mp hr) hw, hostSubmit_decoded hf hb e,
      ← commandChecks_accept]
    exact exec_reports _ _

/-- A step at a SUBMIT the port accepts is checked as the submission is. -/
theorem step_reports {s : State} {d : Descriptor} {rest : List HostAction} (hs : s.script = .submit d :: rest)
    (hf : s.fault = false) (hb : s.busy = false) :
    ReportsFirst (firstFailure d s) (State.accept { s with script := rest }) (step s) := by
  rw [step_script hs]
  exact hostSubmit_reports (s := { s with script := rest }) d hf hb

/-- Settles O14: `step_reports`, whose fault entry is the state the statement writes out. -/
theorem submitReportsFirstFailingCheck : Obligations.SubmitReportsFirstFailingCheck := by
  intro s d rest hs hf hb
  have hstep := step_reports hs hf hb
  refine ⟨hstep.faults, fun hnone => ?_⟩
  obtain ⟨t, ht, hfault, hbusy⟩ := hstep.completes hnone
  exact ⟨t, ht, hfault.trans hf, hbusy⟩

/-- Settles O19: the first check fails. -/
theorem unassignedOpcodeFaults : Obligations.UnassignedOpcodeFaults := by
  intro s d rest hs hf hb hop
  exact (step_reports hs hf hb).faults _ _ (firstFailure_illegalOpcode s hop)

/-- Settles O20: the opcode check passes, and the first of the other decoding checks that fails is the one of each case. -/
theorem reservedNonzeroFaults : Obligations.ReservedNonzeroFaults := by
  rintro s d rest info hs hf hb ⟨hlow, hhigh, hcase⟩
  have hop : ¬ (opcodeValue d = 0 ∨ 5 ≤ opcodeValue d) := by omega
  refine (step_reports hs hf hb).faults .reservedNonzero info ?_
  rcases hcase with ⟨hr, rfl⟩ | ⟨hr, hval, h3, rfl⟩ | ⟨hr, hval, h1, rfl⟩ | ⟨hr, hval, h1, h2, rfl⟩
  · exact firstFailure_reservedBits s hop hr
  · exact firstFailure_unusedOperand (op := .init) (w := 3) s hval hr (by simpa [Opcode.mustBeZero, Descriptor.word] using h3)
  · exact firstFailure_unusedOperand (op := .discard) (w := 1) s hval hr (by simpa [Opcode.mustBeZero, Descriptor.word] using h1)
  · exact firstFailure_unusedOperand (op := .discard) (w := 2) s hval hr (by simpa [Opcode.mustBeZero, Descriptor.word, h1] using h2)

/-! ## The faults of a command (R176 to R178) -/

theorem Cause.code_eq_notInitialized {cause : Cause} : cause.code = 0x03 ↔ cause = .notInitialized := by
  cases cause <;> decide

/-- A command none of whose checks is for `INITED` raises no NOT_INITIALIZED. -/
theorem exec_ne_notInitialized {i : Instr} {s t : State} (hs : s.fault = false)
    (hchecks : ∀ c ∈ commandChecks s i, c.2.1 ≠ .notInitialized) (h : exec i s = .next t) (ht : t.fault = true) :
    t.cause ≠ 0x03 := by
  obtain ⟨cause, info, hmem, rfl⟩ := exec_fault_of_check hs h ht
  exact fun hcode => hchecks _ hmem (Cause.code_eq_notInitialized.mp hcode)

/-- Settles O21: `exec_notInitialized`, and no check of INIT or HCHACHA20 has the cause. -/
theorem notInitializedFaults : Obligations.NotInitializedFaults := by
  refine ⟨fun s a b c hi => ⟨?crypt, ?discard⟩, fun s t a b c hf h ⟨ht, hcause⟩ => ?never⟩
  case crypt => exact exec_notInitialized (.inl rfl) hi
  case discard => exact exec_notInitialized (.inr rfl) hi
  case never =>
    rcases h with h | h
    · exact exec_ne_notInitialized hf (by simp [commandChecks]) h ht hcause
    · exact exec_ne_notInitialized hf (by simp [commandChecks]) h ht hcause

/-- Settles O22: in each case the named range is the first check of its command that fails. -/
theorem accessFaults : Obligations.AccessFaults := by
  refine fun s a b c => ⟨fun ha => ?_, fun ha hb => ?_, fun hi ha => ?_, fun hi ha hb => ?_, fun ha => ?_, fun ha hb => ?_,
    fun ha hb hc => ?_⟩
  · exact exec_faultEntry (cause := .access) (by simp [commandChecks, valid_eq_fits, ha])
  · exact exec_faultEntry (cause := .access) (by simp [commandChecks, valid_eq_fits, ha, hb])
  · exact exec_faultEntry (cause := .access) (by simp [commandChecks, valid_eq_fits, hi, ha])
  · exact exec_faultEntry (cause := .access) (by simp [commandChecks, valid_eq_fits, hi, ha, hb])
  · exact exec_faultEntry (cause := .access) (by simp [commandChecks, valid_eq_fits, ha])
  · exact exec_faultEntry (cause := .access) (by simp [commandChecks, valid_eq_fits, ha, hb])
  · exact exec_faultEntry (cause := .access) (by simp [commandChecks, valid_eq_fits, ha, hb, hc])

/-- Settles O23: every check of CRYPT before the last passes. -/
theorem overlapFaults : Obligations.OverlapFaults := by
  intro s a b c hi ha hb ho
  exact exec_faultEntry (cause := .overlap) (by simp [commandChecks, valid_eq_fits, overlap_eq_partlyOverlap, hi, ha, hb, ho])

/-! ## Fault entry keeps the rest (R173), and only RESET leaves it (R174) -/

/-- A step at a SUBMIT that ends with a fault recorded is fault entry on the accepted state. -/
theorem step_submit_faulted {s t : State} {d : Descriptor} {rest : List HostAction} (hs : s.script = .submit d :: rest)
    (h : step s = .next t) (ht : t.fault = true) :
    ∃ cause info, t = (State.accept { s with script := rest }).faultEntry cause info := by
  obtain ⟨hf, hsub⟩ := step_submit h hs
  obtain ⟨-, hb, -⟩ := hostSubmit_next hsub
  rcases hostSubmit_cases (d := d) (s := { s with script := rest }) hf hb with ⟨cause, info, e⟩ | ⟨i, c, m, b, -, e, e'⟩
  · exact ⟨cause, info, (Host.Outcome.next.inj (e.symm.trans hsub)).symm⟩
  · obtain rfl := Host.Outcome.next.inj ((e.trans e').symm.trans hsub)
    exact absurd (hf.symm.trans ht) (by decide)

/-- Settles O15: the state is `step_submit_faulted`'s, and acceptance and fault entry write none of what is kept. -/
theorem faultsArePrecise : Obligations.FaultsArePrecise := by
  intro s t d rest hs h ht
  obtain ⟨cause, info, rfl⟩ := step_submit_faulted hs h ht
  exact ⟨rfl, rfl, rfl, rfl, rfl, rfl, rfl, rfl, rfl, cause, rfl⟩

/-- A step of a faulted core that is not RESET moves only the host's side and memory. -/
theorem step_sameCore_of_fault {s t : State} (hf : s.fault = true) (h : step s = .next t)
    (hreset : ∀ rest, s.script ≠ .reset :: rest) : s.sameCore t := by
  rcases step_next_cases h with ⟨-, rfl⟩ | ⟨d, rest, -, hready, -⟩ | ⟨i, rest, -, rfl⟩ | ⟨a, rest, -, -, rfl⟩ |
    ⟨a, v, rest, -, -, rfl⟩ | ⟨rest, hs, -⟩
  · exact ⟨rfl, rfl, rfl, rfl, rfl, rfl, rfl⟩
  · exact absurd (hready.symm.trans hf) (by decide)
  · exact ⟨rfl, rfl, rfl, rfl, rfl, rfl, rfl⟩
  · exact ⟨rfl, rfl, rfl, rfl, rfl, rfl, rfl⟩
  · exact ⟨rfl, rfl, rfl, rfl, rfl, rfl, rfl⟩
  · exact absurd hs (hreset rest)

/-- Settles O16: a SUBMIT is halted, `step_sameCore_of_fault`, and the steps at READ_REG and RESET. -/
theorem faultIsStickyUntilReset : Obligations.FaultIsStickyUntilReset := by
  refine fun s hf => ⟨fun d rest hs => ?submit, fun t h hreset => step_sameCore_of_fault hf h hreset, fun i rest hs => ?readReg,
    fun rest hs => ?reset⟩
  case submit =>
    rw [step_script hs]
    simp [interact, hostSubmit, hf]
  case readReg => exact ⟨_, step_script hs, rfl⟩
  case reset => exact ⟨_, step_script hs, rfl, rfl, rfl, rfl⟩

end Sys2Proof.Machine
end

section
/-! PROOFS. The descriptor and its bytes (30_encoding.md): the decoder against the checks of R75, and the 32 bytes of R72. -/

namespace Sys2Proof

open Sys2Proof.Machine

/-- Settles O2: what decodes is its command's encoding, and decoding an encoding gives the command back. -/
theorem decodeInvertsEncode : Obligations.DecodeInvertsEncode :=
  fun _ i => ⟨encode_of_decode, fun h => h ▸ decode_encode i⟩

/-! ## The checks of a descriptor in the words of the decoder (R74, R75) -/

theorem Descriptor.opcodeAssigned_eq_false {d : Descriptor} : d.opcodeAssigned = false ↔ Opcode.ofByte d.opc = none := by
  rw [Opcode.ofByte_eq_none, d.opc_toNat, Descriptor.opcodeAssigned, decide_eq_false_iff_not]
  omega

theorem Descriptor.opcodeAssigned_eq_true {d : Descriptor} :
    d.opcodeAssigned = true ↔ ∃ op, Opcode.ofByte d.opc = some op := by
  rw [← Bool.not_eq_false, Descriptor.opcodeAssigned_eq_false, ← ne_eq, Option.ne_none_iff_exists']

theorem Descriptor.reservedZero_eq_true {d : Descriptor} : d.reservedZero = true ↔ d.rsv = 0 := by
  rw [rsv_eq_zero_iff, Descriptor.reservedZero, decide_eq_true_eq]

theorem Descriptor.reservedZero_eq_false {d : Descriptor} : d.reservedZero = false ↔ d.rsv ≠ 0 := by
  rw [← Bool.not_eq_true, Descriptor.reservedZero_eq_true]

theorem Descriptor.unusedZero_eq_true {d : Descriptor} {op : Opcode} (h : Opcode.ofByte d.opc = some op) :
    d.unusedZero = true ↔ op.mustBeZero.find? (fun w => d.word w != 0) = none := by
  have hval : d.d0.toNat % 256 = op.toByte.toNat := opcodeValue_of_ofByte h
  cases op <;> simp [Descriptor.unusedZero, hval, Opcode.toByte, Opcode.mustBeZero, Descriptor.word]

theorem Descriptor.unusedZero_eq_false {d : Descriptor} {op : Opcode} (h : Opcode.ofByte d.opc = some op) :
    d.unusedZero = false ↔ ∃ w, op.mustBeZero.find? (fun w => d.word w != 0) = some w := by
  rw [← Bool.not_eq_true, Descriptor.unusedZero_eq_true h, ← ne_eq, Option.ne_none_iff_exists']

/-- The operand word that rejects a descriptor: the lowest nonzero one of those its command does not use (R73). -/
theorem rejectedWord {d : Descriptor} {op : Opcode} {w : Fin 4} (h : Opcode.ofByte d.opc = some op)
    (hw : op.mustBeZero.find? (fun w => d.word w != 0) = some w) :
    w ≠ 0 ∧ d.word w ≠ 0 ∧ ((opcodeValue d = 1 ∧ w = 3) ∨ (opcodeValue d = 3 ∧ (w = 1 ∨ (w = 2 ∧ d.d1 = 0)))) := by
  have hval := opcodeValue_of_ofByte h
  have hnonzero : d.word w ≠ 0 := by simpa using List.find?_some hw
  cases op with
  | init =>
    obtain ⟨-, rfl⟩ : d.d3 ≠ 0#64 ∧ 3 = w := by simpa [Opcode.mustBeZero, Descriptor.word] using hw
    exact ⟨by decide, hnonzero, .inl ⟨hval, rfl⟩⟩
  | crypt => cases hw
  | discard =>
    by_cases h1 : d.d1 = 0#64
    · obtain ⟨-, rfl⟩ : d.d2 ≠ 0#64 ∧ 2 = w := by simpa [Opcode.mustBeZero, Descriptor.word, h1] using hw
      exact ⟨by decide, hnonzero, .inr ⟨hval, .inr ⟨rfl, h1⟩⟩⟩
    · obtain rfl : 1 = w := by simpa [Opcode.mustBeZero, Descriptor.word, h1] using hw
      exact ⟨by decide, hnonzero, .inr ⟨hval, .inl rfl⟩⟩
  | hchacha20 => cases hw

/-- The decoder accepts the well-formed descriptors: the three checks are those of its first three steps. -/
theorem exists_decode_iff_wellFormed (d : Descriptor) : (∃ i, decode d = .ok i) ↔ d.wellFormed = true := by
  refine ⟨fun ⟨i, hi⟩ => encode_of_decode hi ▸ encode_wellFormed i, fun h => ?_⟩
  simp only [Descriptor.wellFormed, Bool.and_eq_true] at h
  obtain ⟨⟨hassigned, hreserved⟩, hunused⟩ := h
  obtain ⟨op, hop⟩ := Descriptor.opcodeAssigned_eq_true.mp hassigned
  exact ⟨_, decode_select hop (Descriptor.reservedZero_eq_true.mp hreserved) ((Descriptor.unusedZero_eq_true hop).mp hunused)⟩

/-- Settles O3: each clause is the step of the decoder whose check it names. -/
theorem decodeRejectsByFirstStep : Obligations.DecodeRejectsByFirstStep := by
  refine fun d => ⟨exists_decode_iff_wellFormed d, fun h => decode_illegalOpcode (Descriptor.opcodeAssigned_eq_false.mp h),
    fun hassigned hreserved => ?reserved, fun hassigned hreserved hunused => ?unused⟩
  case reserved =>
    obtain ⟨op, hop⟩ := Descriptor.opcodeAssigned_eq_true.mp hassigned
    exact decode_reservedBits hop (Descriptor.reservedZero_eq_false.mp hreserved)
  case unused =>
    obtain ⟨op, hop⟩ := Descriptor.opcodeAssigned_eq_true.mp hassigned
    obtain ⟨w, hw⟩ := (Descriptor.unusedZero_eq_false hop).mp hunused
    exact ⟨w, decode_unusedOperand hop (Descriptor.reservedZero_eq_true.mp hreserved) hw, rejectedWord hop hw⟩

/-! ## The 32 bytes of a descriptor (R72) -/

theorem Descriptor.length_toBytes (d : Descriptor) : d.toBytes.length = 32 := rfl

/-- Byte `8 * w + j` is byte `j` of word `Dw`. -/
theorem Descriptor.getD_toBytes (d : Descriptor) (w : Fin 4) {j : Nat} (h : j < 8) :
    d.toBytes.getD (8 * w.val + j) 0 = (d.word w).extractLsb' (8 * j) 8 := by
  fin_cases w <;> interval_cases j <;> rfl

/-- A word is its eight bytes, the most significant first. -/
theorem append_extractBytes (v : DWord) :
    (v.extractLsb' 56 8 ++ v.extractLsb' 48 8 ++ v.extractLsb' 40 8 ++ v.extractLsb' 32 8 ++ v.extractLsb' 24 8 ++
      v.extractLsb' 16 8 ++ v.extractLsb' 8 8 ++ v.extractLsb' 0 8 : BitVec 64) = v := by
  have hjoin : ∀ {lo hi m n : Nat}, hi = lo + n → v.extractLsb' hi m ++ v.extractLsb' lo n = v.extractLsb' lo (m + n) :=
    BitVec.extractLsb'_append_extractLsb'_eq_extractLsb'
  rw [hjoin (show 56 = 48 + 8 from rfl), hjoin (show 48 = 40 + 8 from rfl), hjoin (show 40 = 32 + 8 from rfl),
    hjoin (show 32 = 24 + 8 from rfl), hjoin (show 24 = 16 + 8 from rfl), hjoin (show 16 = 8 + 8 from rfl),
    hjoin (show 8 = 0 + 8 from rfl)]
  exact BitVec.extractLsb'_eq_self

theorem Descriptor.le64_toBytes (d : Descriptor) (w : Fin 4) : le64 d.toBytes w.val = d.word w := by
  have hbyte0 := d.getD_toBytes w (show 0 < 8 by decide)
  rw [Nat.add_zero] at hbyte0
  have hbyte : ∀ j < 8, d.toBytes.getD (8 * w.val + j) 0 = (d.word w).extractLsb' (8 * j) 8 := fun _ => d.getD_toBytes w
  rw [le64, hbyte0, hbyte 1 (by decide), hbyte 2 (by decide), hbyte 3 (by decide), hbyte 4 (by decide), hbyte 5 (by decide),
    hbyte 6 (by decide), hbyte 7 (by decide)]
  exact append_extractBytes (d.word w)

theorem Descriptor.ofBytes_toBytes (d : Descriptor) : Descriptor.ofBytes d.toBytes = some d := by
  have h0 : le64 d.toBytes 0 = d.d0 := d.le64_toBytes 0
  have h1 : le64 d.toBytes 1 = d.d1 := d.le64_toBytes 1
  have h2 : le64 d.toBytes 2 = d.d2 := d.le64_toBytes 2
  have h3 : le64 d.toBytes 3 = d.d3 := d.le64_toBytes 3
  rw [Descriptor.ofBytes, if_pos d.length_toBytes, h0, h1, h2, h3]

/-- Settles O5: `Descriptor.getD_toBytes` as a number, and `Descriptor.ofBytes_toBytes`. -/
theorem descriptorByteForm : Obligations.DescriptorByteForm := by
  refine fun d => ⟨d.length_toBytes, fun w j hj => ?_, d.ofBytes_toBytes⟩
  rw [d.getD_toBytes w hj, BitVec.extractLsb'_toNat, Nat.shiftRight_eq_div_pow]

end Sys2Proof
end

section
/-! PROOFS. Words as numbers (20_memory.md R51) and the status registers bit by bit (10_state.md R34, R35). -/

namespace Sys2Proof.Machine

/-! ## Little-endian words (R51) -/

theorem toNat_append_eq_add {m n : Nat} (x : BitVec m) (y : BitVec n) : (x ++ y).toNat = x.toNat * 2 ^ n + y.toNat := by
  rw [BitVec.toNat_append, ← Nat.shiftLeft_add_eq_or_of_lt y.isLt, Nat.shiftLeft_eq]

/-- `le32` is its four bytes, the most significant first. -/
theorem le32_eq_append (b : Bytes) (j : Nat) :
    le32 b j = b.getD (4 * j + 3) 0 ++ b.getD (4 * j + 2) 0 ++ b.getD (4 * j + 1) 0 ++ b.getD (4 * j) 0 := by
  apply BitVec.eq_of_getLsbD_eq
  intro i hi
  simp only [le32, BitVec.getLsbD_append, BitVec.getLsbD_or, BitVec.getLsbD_shiftLeft, BitVec.getLsbD_setWidth]
  interval_cases i <;> simp

theorem le32_toNat (b : Bytes) (j : Nat) : (le32 b j).toNat =
    (b.getD (4 * j) 0).toNat + 2 ^ 8 * (b.getD (4 * j + 1) 0).toNat + 2 ^ 16 * (b.getD (4 * j + 2) 0).toNat +
      2 ^ 24 * (b.getD (4 * j + 3) 0).toNat := by
  rw [le32_eq_append, toNat_append_eq_add, toNat_append_eq_add, toNat_append_eq_add]
  omega

theorem getD_bytes32 (w : Word) {k : Nat} (h : k < 4) : (bytes32 w).getD k 0 = w.extractLsb' (8 * k) 8 := by
  interval_cases k <;> rfl

/-- Settles O27: `le32_toNat`, `getD_bytes32` as a number, `le32_bytes32`, and the four words of the ASCII string. -/
theorem wordsAreLittleEndian : Obligations.WordsAreLittleEndian := by
  refine ⟨le32_toNat, fun w => ⟨length_bytes32 w, fun k hk => ?byte, le32_bytes32 w⟩, by decide⟩
  case byte => rw [getD_bytes32 w hk, BitVec.extractLsb'_toNat, Nat.shiftRight_eq_div_pow]

/-! ## The status registers (R34, R35) -/

variable (s : State)

theorem State.readReg_status : s.readReg 0x00 = s.status := rfl
theorem State.readReg_cause : s.readReg 0x01 = s.cause.setWidth 64 := rfl
theorem State.readReg_info : s.readReg 0x02 = s.info := rfl
theorem State.readReg_ctr : s.readReg 0x03 = s.readCtr := rfl
theorem State.readReg_pos : s.readReg 0x04 = s.readPos := rfl

/-- An index with no register reads 0. -/
theorem State.readReg_reserved {i : BitVec 8} (h : 5 ≤ i.toNat) : s.readReg i = 0 := by
  unfold State.readReg
  split
  case h_6 => rfl
  all_goals omega

/-- STATUS as three bits side by side. -/
theorem State.status_getLsbD (k : Nat) : s.status.getLsbD k =
    (decide (k = 0) && s.inited || decide (k = 1) && s.fault || decide (k = 2) && s.busy) := by
  simp only [State.status, BitVec.getLsbD_or, BitVec.getLsbD_shiftLeft, BitVec.getLsbD_setWidth, BitVec.getLsbD_ofBool]
  rcases k with _ | _ | _ | k <;> simp

theorem State.readPos_getLsbD {k : Nat} (h : 7 ≤ k) : s.readPos.getLsbD k = false := by
  rw [State.readPos, BitVec.getLsbD_setWidth, BitVec.getLsbD_of_ge _ _ h, Bool.and_false]

/-- Settles O11: one register a clause, by the lemmas above. -/
theorem statusRegisterLayout : Obligations.StatusRegisterLayout := by
  intro s
  refine ⟨?status, ?cause, s.readReg_info, fun hi => ?ctr, fun hi => ?pos, fun k hk => s.readPos_getLsbD hk,
    fun i hi => s.readReg_reserved hi⟩
  case status =>
    simp only [s.readReg_status, s.status_getLsbD]
    exact ⟨by simp, by simp, by simp, fun k hk => by simp [show k ≠ 0 by omega, show k ≠ 1 by omega, show k ≠ 2 by omega]⟩
  case cause =>
    rw [s.readReg_cause, BitVec.toNat_setWidth_of_le (by decide)]
  case ctr => rw [s.readReg_ctr, State.readCtr, if_pos hi, s.cipher.ctr_toNat]
  case pos => rw [s.readReg_pos, State.readPos, if_pos hi, BitVec.toNat_setWidth_of_le (by decide)]

end Sys2Proof.Machine
end

section
/-! PROOFS. One step for each interaction of the host (30_encoding.md R70, R83): the state it leaves, and what that says of the command
index, of the host's replies and of memory. -/

namespace Sys2Proof.Machine

/-! ## The step of each interaction that is no SUBMIT -/

section
variable {s : State} {rest : List HostAction} {a : DWord}

theorem step_readReg {i : BitVec 8} (hs : s.script = .readReg i :: rest) :
    step s = .next { s with script := rest, replies := .reg i (s.readReg i) :: s.replies, draws := s.draws + 1 } :=
  step_script hs

theorem step_readMem (hs : s.script = .readMem a :: rest) (ha : a.toNat < s.memSize) :
    step s = .next { s with script := rest, replies := .byte a (s.mem.read a.toNat) :: s.replies } :=
  (step_script hs).trans (if_pos ha)

theorem step_writeMem {v : Byte} (hs : s.script = .writeMem a v :: rest) (ha : a.toNat < s.memSize) :
    step s = .next { s with script := rest, mem := s.mem.write a.toNat v } :=
  (step_script hs).trans (if_pos ha)

theorem step_readMem_outside (hs : s.script = .readMem a :: rest) (ha : s.memSize ≤ a.toNat) :
    step s = .fault (.hostOutsideMemory a) :=
  (step_script hs).trans (if_neg (Nat.not_lt.mpr ha))

theorem step_writeMem_outside {v : Byte} (hs : s.script = .writeMem a v :: rest) (ha : s.memSize ≤ a.toNat) :
    step s = .fault (.hostOutsideMemory a) :=
  (step_script hs).trans (if_neg (Nat.not_lt.mpr ha))

end

/-- Settles O10: the state of `step_readReg`. -/
theorem readRegChangesNoState : Obligations.ReadRegChangesNoState := by
  intro s i rest hs
  exact ⟨_, step_readReg hs, rfl, ⟨rfl, rfl, rfl, rfl, rfl, rfl, rfl⟩, rfl, rfl, rfl⟩

/-- Settles O12: the states of `step_writeMem` and `step_readMem`, a read after a write, and the two accesses outside memory. -/
theorem hostMemoryIsPlainStorage : Obligations.HostMemoryIsPlainStorage := by
  refine ⟨fun s a v rest hwf hs ha => ?write, fun s a rest hs ha => ?read, fun s a v rest hs ha => ?beyond⟩
  case write =>
    exact ⟨_, step_writeMem hs ha, Memory.read_write_same hwf a.toNat v, fun x hx => Memory.read_write_other s.mem hx v,
      ⟨rfl, rfl, rfl, rfl, rfl, rfl, rfl⟩⟩
  case read => exact ⟨_, step_readMem hs ha, rfl, rfl, ⟨rfl, rfl, rfl, rfl, rfl, rfl, rfl⟩⟩
  case beyond =>
    rcases hs with hs | hs
    · exact step_readMem_outside hs ha
    · exact step_writeMem_outside hs ha

/-- Settles O13: the fields `State.hostReset` writes and keeps. -/
theorem resetClearsStatusAndKeepsMemory : Obligations.ResetClearsStatusAndKeepsMemory := by
  intro s rest hs
  exact ⟨_, step_script hs, rfl, rfl, rfl, rfl, rfl, rfl, rfl, rfl, rfl, rfl⟩

/-! ## The step at a SUBMIT (R70, R75, R170) -/

/-- Settles O7: the accepted state of `hostSubmit_decoded` is the one the statement writes out. -/
theorem stepRunsDecodedCommand : Obligations.StepRunsDecodedCommand := by
  intro s d rest i hs hf hb hd
  rw [step_script hs]
  exact hostSubmit_decoded (s := { s with script := rest }) hf hb hd

theorem State.cmdReady_iff {s : State} : s.cmdReady = true ↔ s.fault = false ∧ s.busy = false := by
  cases hf : s.fault <;> cases hb : s.busy <;> simp [State.cmdReady, hf, hb]

/-- A step at a SUBMIT has a next state exactly when the port is ready. -/
theorem step_submit_next_iff {s : State} {d : Descriptor} {rest : List HostAction} (hs : s.script = .submit d :: rest) :
    (∃ t, step s = .next t) ↔ s.cmdReady = true := by
  rw [State.cmdReady_iff]
  refine ⟨fun ⟨t, h⟩ => ?_, fun ⟨hf, hb⟩ => ?_⟩
  · obtain ⟨hf, hsub⟩ := step_submit h hs
    exact ⟨hf, (hostSubmit_next hsub).2.1⟩
  · rw [step_script hs]
    rcases hostSubmit_cases (d := d) (s := { s with script := rest }) hf hb with ⟨cause, info, e⟩ | ⟨i, c, m, b, -, e, e'⟩
    · exact ⟨_, e⟩
    · exact ⟨_, e.trans e'⟩

/-- What every accepted SUBMIT leaves, completed or faulted. -/
theorem step_submit_leaves {s t : State} {d : Descriptor} {rest : List HostAction} (hs : s.script = .submit d :: rest)
    (h : step s = .next t) : t.busy = false ∧ t.cmdIndex = s.cmdIndex + 1 ∧ t.script = rest := by
  obtain ⟨hf, hsub⟩ := step_submit h hs
  obtain ⟨-, hb, -⟩ := hostSubmit_next hsub
  rcases hostSubmit_cases (d := d) (s := { s with script := rest }) hf hb with ⟨cause, info, e⟩ | ⟨i, c, m, b, -, e, e'⟩
  · obtain rfl := Host.Outcome.next.inj (e.symm.trans hsub)
    exact ⟨rfl, rfl, rfl⟩
  · obtain rfl := Host.Outcome.next.inj ((e.trans e').symm.trans hsub)
    exact ⟨rfl, rfl, rfl⟩

/-- Every command ends in an idle state. -/
theorem exec_ends_idle (i : Instr) (s : State) : ∃ t, exec i s = .next t ∧ t.busy = false := by
  rcases exec_cases i s with ⟨cause, info, e⟩ | ⟨c, m, b, e⟩
  · exact ⟨_, e, rfl⟩
  · exact ⟨_, e, rfl⟩

/-- Settles O8: `step_submit_next_iff`, `step_submit_leaves`, the fault entry of `step_submit_faulted`, and `exec_ends_idle`. -/
theorem submitEndsInOneOfTwoOutcomes : Obligations.SubmitEndsInOneOfTwoOutcomes := by
  refine ⟨fun s d rest hs => ⟨step_submit_next_iff hs, fun t h => ?_⟩, exec_ends_idle⟩
  obtain ⟨hbusy, hindex, hscript⟩ := step_submit_leaves hs h
  refine ⟨hbusy, hindex, hscript, ?_⟩
  cases hf : t.fault with
  | false => exact .inl rfl
  | true =>
    obtain ⟨cause, info, ht⟩ := step_submit_faulted hs h hf
    exact .inr ⟨cause, info, ht⟩

/-- Settles O9: the state each interaction leaves. -/
theorem commandIndexCountsAcceptedCommands : Obligations.CommandIndexCountsAcceptedCommands := by
  refine fun s t h => ⟨fun hs => ?idle, fun d rest hs => (step_submit_leaves hs h).2.1, fun rest hs => ?reset,
    fun i rest hs => ?readReg, fun a rest hs => ?readMem, fun a v rest hs => ?writeMem⟩
  case idle => rw [Host.Outcome.next.inj ((step_idle hs).symm.trans h)]
  case reset => rw [step_reset h hs, State.hostReset_cmdIndex]
  case readReg => rw [← Host.Outcome.next.inj ((step_readReg hs).symm.trans h)]
  case readMem =>
    by_cases ha : a.toNat < s.memSize
    · rw [← Host.Outcome.next.inj ((step_readMem hs ha).symm.trans h)]
    · cases (step_readMem_outside hs (Nat.le_of_not_lt ha)).symm.trans h
  case writeMem =>
    by_cases ha : a.toNat < s.memSize
    · rw [← Host.Outcome.next.inj ((step_writeMem hs ha).symm.trans h)]
    · cases (step_writeMem_outside hs (Nat.le_of_not_lt ha)).symm.trans h

end Sys2Proof.Machine
end

section
/-! PROOFS. The four commands: the state each leaves where its checks pass, and what each leaves unchanged whether it completes or
faults (41_subkey.md R120, 42_keystream.md R130, 43_stream.md R150 and R153, 60_exceptions.md R173). -/

namespace Sys2Proof.Machine

/-! ## A command whose checks pass -/

section
variable {s : State} {a b c : DWord}

theorem valid_iff_fits {n : Nat} : s.valid a n = true ↔ s.fits a n := by
  rw [valid_eq_fits, decide_eq_true_eq]

theorem exec_init_of_fits (ha : s.fits a 32) (hb : s.fits b 24) : exec (.init a b) s =
    .next { s with cipher := s.cipher.start (s.memRead a 32) (s.memRead b 24), inited := true, busy := false } := by
  simpa [valid_iff_fits.mpr ha, valid_iff_fits.mpr hb] using execInit_cases a b s

theorem exec_hchacha20_of_fits (ha : s.fits a 32) (hb : s.fits b 16) (hc : s.fits c 32) : exec (.hchacha20 a b c) s =
    .next { s with mem := s.mem.writeBytes c.toNat (s.derivedSubkey a b), busy := false } := by
  simpa [valid_iff_fits.mpr ha, valid_iff_fits.mpr hb, valid_iff_fits.mpr hc] using execHchacha20_cases a b c s

theorem exec_crypt_of_fits (hi : s.inited = true) (ha : s.fits a c.toNat) (hb : s.fits b c.toNat)
    (ho : sameOrDisjoint a b c.toNat) : exec (.crypt a b c) s = .next { s with
      cipher := s.cipher.use c.toNat
      mem := s.mem.writeBytes b.toNat (xorBytes (s.memRead a c.toNat) (s.cipher.keystream c.toNat))
      busy := false } := by
  simpa [hi, valid_iff_fits.mpr ha, valid_iff_fits.mpr hb, overlap_false.mpr ho] using execCrypt_cases a b c s

theorem exec_discard_of_inited (hi : s.inited = true) : exec (.discard c) s =
    .next { s with cipher := s.cipher.discard c.toNat, busy := false } := by
  simpa [hi] using execDiscard_cases c s

end

/-- Settles O33: reading back what was written gives the subkey, and `Memory.read_writeBytes_outside` for the other bytes. The subkey
is a variable before the state is built, so that unification does not evaluate the permutation. -/
theorem hchachaWritesSubkey : Obligations.HchachaWritesSubkey := by
  intro s a b c hwf ha hb hc
  have hexec := exec_hchacha20_of_fits ha hb hc
  have hlen := s.length_derivedSubkey a b
  rw [← s.derivedSubkey_eq]
  generalize s.derivedSubkey a b = sk at hexec hlen ⊢
  refine ⟨_, hexec, ?subkey, fun x hx => ?other, rfl⟩
  case subkey =>
    have hback := Memory.readBytes_writeBytes hwf c.toNat sk
    rwa [hlen] at hback
  case other => exact Memory.read_writeBytes_outside s.mem (by rwa [hlen])

/-- The first 16 of the 24 nonce bytes. -/
theorem take_memRead_nonce (s : State) (b : DWord) : (s.memRead b 24).take 16 = s.mem.readBytes b.toNat 16 := by
  rw [State.memRead, s.mem.readBytes_append b.toNat 16 8]
  exact List.take_left' (Memory.length_readBytes ..)

/-- The last 8 of the 24 nonce bytes. -/
theorem drop_memRead_nonce (s : State) (b : DWord) : (s.memRead b 24).drop 16 = s.mem.readBytes (b.toNat + 16) 8 := by
  rw [State.memRead, s.mem.readBytes_append b.toNat 16 8]
  exact List.drop_left' (Memory.length_readBytes ..)

/-- Settles O35: the words of `initMatrix` one group at a time. -/
theorem initBuildsFreshStream : Obligations.InitBuildsFreshStream := by
  intro s a b ha hb
  have hsigma := initMatrix_sigma (s.memRead a 32) (s.memRead b 24)
  obtain ⟨h12, h13⟩ := initMatrix_counter (s.memRead a 32) (s.memRead b 24)
  refine ⟨_, exec_init_of_fits ha hb, rfl, hsigma 0, hsigma 1, hsigma 2, hsigma 3, fun j => ?subkey, h12, h13, fun j => ?nonce⟩
  case subkey =>
    rw [← take_memRead_nonce]
    exact initMatrix_subkey (s.memRead a 32) (s.memRead b 24) j
  case nonce =>
    rw [← drop_memRead_nonce]
    exact initMatrix_nonce (s.memRead a 32) (s.memRead b 24) j

/-- Settles O37: byte `i` of the range written is byte `i` of the input XORed with the keystream. -/
theorem cryptWritesInputXorKeystream : Obligations.CryptWritesInputXorKeystream := by
  intro s a b c hwf hi ha hb ho
  have hlen := length_cryptOutput s.mem s.cipher a.toNat c.toNat
  refine ⟨_, exec_crypt_of_fits hi ha hb ho, fun i hic => ?inside, fun x hx => ?outside, rfl⟩
  case inside =>
    exact (Memory.read_writeBytes_inside hwf (hic.trans_eq hlen.symm)).trans (getD_cryptOutput s.mem s.cipher hic)
  case outside =>
    refine Memory.read_writeBytes_outside s.mem (bs := xorBytes (s.mem.readBytes a.toNat c.toNat) _) ?_
    rwa [hlen]

/-! ## Length 0, a second INIT and the wrap of the counter (R181) -/

/-- DISCARD of no byte changes nothing, wherever the cursor is. -/
theorem Cipher.discard_zero (c : Cipher) : c.discard 0 = c := by
  have hnone : c.leftover 0 = 0 := by
    unfold Cipher.leftover
    split <;> omega
  have hconsume : c.consume 0 = c := by
    rw [Cipher.consume, Nat.add_zero, BitVec.ofNat_toNat, BitVec.setWidth_eq]
  rw [Cipher.discard, hnone, hconsume, Cipher.skipBlocks_whole (by decide)]
  exact c.incCtr_zero

/-- CRYPT of no byte, at any addresses. -/
theorem exec_crypt_zero {s : State} (hi : s.inited = true) (a b : DWord) : exec (.crypt a b 0) s = .next { s with busy := false } :=
  exec_crypt_of_fits hi (.inl rfl) (.inl rfl) (.inl rfl)

/-- Settles O50: `exec_crypt_zero`, `Cipher.discard_zero`, `exec_init_of_fits`, and the increment of BLOCK. -/
theorem lengthZeroAndWrapAreNoFaults : Obligations.LengthZeroAndWrapAreNoFaults := by
  refine ⟨fun s a b hi => ⟨exec_crypt_zero hi a b, ?discard⟩, fun s a b _ hf ha hb => ?init, fun c hc => ?wrap⟩
  case discard =>
    have hnone : s.cipher.discard (0 : DWord).toNat = s.cipher := s.cipher.discard_zero
    rw [exec_discard_of_inited hi, hnone]
  case init => exact ⟨_, exec_init_of_fits ha hb, hf, rfl⟩
  case wrap =>
    apply BitVec.eq_of_toNat_eq
    rw [c.ctr_block_toNat, hc]
    rfl

/-! ## Everything a command that has a next state did -/

section
variable {s t : State} {a b c : DWord}

theorem exec_init_next (h : exec (.init a b) s = .next t) : (∃ cause info, t = s.faultEntry cause info) ∨
    t = { s with cipher := s.cipher.start (s.memRead a 32) (s.memRead b 24), inited := true, busy := false } := by
  rcases execInit_cases a b s with ⟨-, e⟩ | ⟨-, -, e⟩ | ⟨-, -, e⟩
  · exact .inl ⟨_, _, Host.Outcome.next.inj (h.symm.trans e)⟩
  · exact .inl ⟨_, _, Host.Outcome.next.inj (h.symm.trans e)⟩
  · exact .inr (Host.Outcome.next.inj (h.symm.trans e))

theorem exec_hchacha20_next (h : exec (.hchacha20 a b c) s = .next t) : (∃ cause info, t = s.faultEntry cause info) ∨
    (s.fits c 32 ∧ ∃ sk, sk.length = 32 ∧ t = { s with mem := s.mem.writeBytes c.toNat sk, busy := false }) := by
  rcases execHchacha20_cases a b c s with ⟨-, e⟩ | ⟨-, -, e⟩ | ⟨-, -, -, e⟩ | ⟨-, -, hc, e⟩
  · exact .inl ⟨_, _, Host.Outcome.next.inj (h.symm.trans e)⟩
  · exact .inl ⟨_, _, Host.Outcome.next.inj (h.symm.trans e)⟩
  · exact .inl ⟨_, _, Host.Outcome.next.inj (h.symm.trans e)⟩
  · exact .inr ⟨valid_iff_fits.mp hc, _, s.length_derivedSubkey a b, Host.Outcome.next.inj (h.symm.trans e)⟩

theorem exec_crypt_next (h : exec (.crypt a b c) s = .next t) : (∃ cause info, t = s.faultEntry cause info) ∨
    (s.inited = true ∧ s.fits b c.toNat ∧ t = { s with
      cipher := s.cipher.use c.toNat
      mem := s.mem.writeBytes b.toNat (xorBytes (s.memRead a c.toNat) (s.cipher.keystream c.toNat))
      busy := false }) := by
  rcases execCrypt_cases a b c s with ⟨-, e⟩ | ⟨-, -, e⟩ | ⟨-, -, -, e⟩ | ⟨-, -, -, -, e⟩ | ⟨hi, -, hb, -, e⟩
  · exact .inl ⟨_, _, Host.Outcome.next.inj (h.symm.trans e)⟩
  · exact .inl ⟨_, _, Host.Outcome.next.inj (h.symm.trans e)⟩
  · exact .inl ⟨_, _, Host.Outcome.next.inj (h.symm.trans e)⟩
  · exact .inl ⟨_, _, Host.Outcome.next.inj (h.symm.trans e)⟩
  · exact .inr ⟨hi, valid_iff_fits.mp hb, Host.Outcome.next.inj (h.symm.trans e)⟩

theorem exec_discard_next (h : exec (.discard c) s = .next t) : (∃ cause info, t = s.faultEntry cause info) ∨
    (s.inited = true ∧ t = { s with cipher := s.cipher.discard c.toNat, busy := false }) := by
  rcases execDiscard_cases c s with ⟨-, e⟩ | ⟨hi, e⟩
  · exact .inl ⟨_, _, Host.Outcome.next.inj (h.symm.trans e)⟩
  · exact .inr ⟨hi, Host.Outcome.next.inj (h.symm.trans e)⟩

/-! ## Frames -/

theorem exec_sameOutside {i : Instr} (h : exec i s = .next t) : s.sameOutside t := by
  rcases exec_cases i s with ⟨cause, info, e⟩ | ⟨_, _, _, e⟩
  · obtain rfl := Host.Outcome.next.inj (e.symm.trans h)
    exact ⟨rfl, rfl, rfl, rfl, rfl⟩
  · obtain rfl := Host.Outcome.next.inj (e.symm.trans h)
    exact ⟨rfl, rfl, rfl, rfl, rfl⟩

theorem exec_sameRecord {i : Instr} (h : exec i s = .next t) : s.sameRecord t := by
  rcases exec_cases i s with ⟨cause, info, e⟩ | ⟨_, _, _, e⟩
  · obtain rfl := Host.Outcome.next.inj (e.symm.trans h)
    exact ⟨rfl, fun _ => rfl, nofun⟩
  · obtain rfl := Host.Outcome.next.inj (e.symm.trans h)
    exact ⟨rfl, id, fun _ => ⟨rfl, rfl⟩⟩

/-- A command that faults, from a state without a fault, is fault entry: it keeps the cipher state, `INITED` and memory. -/
theorem exec_faulted_keeps {i : Instr} (h : exec i s = .next t) (hs : s.fault = false) (ht : t.fault = true) :
    t.cipher = s.cipher ∧ t.inited = s.inited ∧ t.mem = s.mem := by
  obtain ⟨cause, info, -, rfl⟩ := exec_fault_of_check hs h ht
  exact ⟨rfl, rfl, rfl⟩

end

/-- Settles O51: fault entry, or `Cipher.start`, which keeps `KS`. -/
theorem initFrame : Obligations.InitFrame := by
  intro s t a b h
  have hkept : t.mem = s.mem ∧ t.cipher.ks = s.cipher.ks := by
    rcases exec_init_next h with ⟨cause, info, rfl⟩ | rfl
    · exact ⟨rfl, rfl⟩
    · exact ⟨rfl, rfl⟩
  obtain ⟨hmem, hks⟩ := hkept
  refine ⟨fun x => by rw [hmem], hks, exec_sameOutside h, exec_sameRecord h, fun hs ht => ?_⟩
  obtain ⟨hcipher, hinited, -⟩ := exec_faulted_keeps h hs ht
  exact ⟨hcipher, hinited⟩

/-- Settles O52: fault entry, or 32 bytes stored from `C` on. -/
theorem hchachaFrame : Obligations.HchachaFrame := by
  intro s t a b c h
  have hkept : (∀ x, outside x c 32 → t.mem.read x = s.mem.read x) ∧ t.cipher = s.cipher := by
    rcases exec_hchacha20_next h with ⟨cause, info, rfl⟩ | ⟨-, sk, hlen, rfl⟩
    · exact ⟨fun _ _ => rfl, rfl⟩
    · exact ⟨fun x hx => Memory.read_writeBytes_outside s.mem (by rwa [hlen]), rfl⟩
  obtain ⟨hmem, hcipher⟩ := hkept
  refine ⟨hmem, hcipher, exec_inited (by simp) h, exec_sameOutside h, exec_sameRecord h, fun hs ht => ?_⟩
  obtain ⟨-, -, hmem⟩ := exec_faulted_keeps h hs ht
  exact hmem

/-- Settles O53: fault entry, or `C` bytes stored from `B` on and as many keystream bytes used. -/
theorem cryptFrame : Obligations.CryptFrame := by
  intro s t a b c h
  have hkept : (∀ x, outside x b c.toNat → t.mem.read x = s.mem.read x) ∧
      ∀ i : Fin 16, i ≠ 12 → i ≠ 13 → t.cipher.st[i] = s.cipher.st[i] := by
    rcases exec_crypt_next h with ⟨cause, info, rfl⟩ | ⟨-, -, rfl⟩
    · exact ⟨fun _ _ => rfl, fun _ _ _ => rfl⟩
    · refine ⟨fun x hx => Memory.read_writeBytes_outside s.mem ?_, fun i h12 h13 => s.cipher.use_other _ h12 h13⟩
      rwa [State.memRead, length_cryptOutput]
  obtain ⟨hmem, hst⟩ := hkept
  refine ⟨hmem, exec_inited (by simp) h, hst, exec_sameOutside h, exec_sameRecord h, fun hs ht => ?_⟩
  obtain ⟨hcipher, -, hmem⟩ := exec_faulted_keeps h hs ht
  exact ⟨hmem, hcipher⟩

/-- Settles O54: fault entry, or bytes discarded. -/
theorem discardFrame : Obligations.DiscardFrame := by
  intro s t c h
  have hkept : t.mem = s.mem ∧ ∀ i : Fin 16, i ≠ 12 → i ≠ 13 → t.cipher.st[i] = s.cipher.st[i] := by
    rcases exec_discard_next h with ⟨cause, info, rfl⟩ | ⟨-, rfl⟩
    · exact ⟨rfl, fun _ _ _ => rfl⟩
    · exact ⟨rfl, fun i h12 h13 => s.cipher.discard_other _ h12 h13⟩
  obtain ⟨hmem, hst⟩ := hkept
  refine ⟨fun x => by rw [hmem], exec_inited (by simp) h, hst, exec_sameOutside h, exec_sameRecord h, fun hs ht => ?_⟩
  obtain ⟨hcipher, -, -⟩ := exec_faulted_keeps h hs ht
  exact hcipher

/-! ## The matrix between two INITs (R24) -/

/-- A command that is not INIT keeps every word of `ST` but the counter's two. -/
theorem exec_st_other {i : Instr} {s t : State} (hi : ∀ a b, i ≠ .init a b) (h : exec i s = .next t) {j : Fin 16} (h12 : j ≠ 12)
    (h13 : j ≠ 13) : t.cipher.st[j] = s.cipher.st[j] := by
  cases i with
  | init a b => exact absurd rfl (hi a b)
  | crypt a b c =>
    obtain ⟨-, -, hst, -⟩ := cryptFrame s t a b c h
    exact hst j h12 h13
  | discard c =>
    obtain ⟨-, -, hst, -⟩ := discardFrame s t c h
    exact hst j h12 h13
  | hchacha20 a b c =>
    obtain ⟨-, hcipher, -⟩ := hchachaFrame s t a b c h
    rw [hcipher]

/-- A command that is not INIT and changes `ST` is CRYPT or DISCARD. -/
theorem exec_st_changed {i : Instr} {s t : State} (hi : ∀ a b, i ≠ .init a b) (h : exec i s = .next t)
    (hst : t.cipher.st ≠ s.cipher.st) : i.opcode = .crypt ∨ i.opcode = .discard := by
  cases i with
  | init a b => exact absurd rfl (hi a b)
  | crypt a b c => exact .inl rfl
  | discard c => exact .inr rfl
  | hchacha20 a b c =>
    obtain ⟨-, hcipher, -⟩ := hchachaFrame s t a b c h
    exact absurd (by rw [hcipher]) hst

/-- A step that is neither RESET nor a SUBMIT of INIT keeps the cipher state, or is a completed command that is not INIT. -/
theorem step_cipher_cases {s t : State} (h : step s = .next t) (hreset : ∀ rest, s.script ≠ .reset :: rest)
    (hinit : ∀ d rest a b, s.script = .submit d :: rest → decode d ≠ .ok (.init a b)) :
    t.cipher = s.cipher ∨
    ∃ d rest i, s.script = .submit d :: rest ∧ decode d = .ok i ∧ (∀ a b, i ≠ .init a b) ∧ t.fault = false ∧
      exec i (State.accept { s with script := rest }) = .next t := by
  rcases step_next_cases h with ⟨-, rfl⟩ | ⟨d, rest, hs, hf, -, hend⟩ | ⟨i, rest, -, rfl⟩ | ⟨a, rest, -, -, rfl⟩ |
    ⟨a, v, rest, -, -, rfl⟩ | ⟨rest, hs, -⟩
  · exact .inl rfl
  · rcases hend with ⟨cause, info, rfl⟩ | ⟨i, c, m, b, hd, hexec, ht⟩
    · exact .inl rfl
    · exact .inr ⟨d, rest, i, hs, hd, fun a b hi => hinit d rest a b hs (hi ▸ hd), by rw [ht]; exact hf, hexec⟩
  · exact .inl rfl
  · exact .inl rfl
  · exact .inl rfl
  · exact absurd hs (hreset rest)

/-- Settles O41: `step_cipher_cases`, and what a command that is not INIT does to `ST`. -/
theorem matrixWordsFixedBetweenInits : Obligations.MatrixWordsFixedBetweenInits := by
  intro s t h hreset hinit
  rcases step_cipher_cases h hreset hinit with hcipher | ⟨d, rest, i, hs, hd, hi, hf, hexec⟩
  · exact ⟨fun _ _ _ => by rw [hcipher], fun hst => absurd (by rw [hcipher]) hst⟩
  · exact ⟨fun _ h12 h13 => exec_st_other hi hexec h12 h13, fun hst => ⟨d, rest, i, hs, hd, exec_st_changed hi hexec hst, hf⟩⟩

end Sys2Proof.Machine
end

section
/-! PROOFS. Moving the stream (43_stream.md): one byte at a time, by a DISCARD in closed form, in two CRYPTs for one, in two DISCARDs for
one, and round all 2^64 blocks (42_keystream.md R136). -/

namespace Sys2Proof.Machine

/-! ## One byte (R150) -/

/-- At an exhausted block, one byte is byte 0 of a new block. -/
theorem Cipher.useOne_exhausted {c : Cipher} (h : c.pos = 64) :
    c.nextByte = ksByte c.block.ks 0 ∧ c.use 1 = { c.block with pos := 1 } := by
  rw [Cipher.nextByte, Cipher.use_succ, Cipher.use, Cipher.refill_exhausted h]
  exact ⟨rfl, rfl⟩

/-- In a block in use, one byte moves the cursor only. -/
theorem Cipher.useOne_open {c : Cipher} (h : c.pos ≠ 64) : c.nextByte = ksByte c.ks c.pos.toNat ∧ c.use 1 = c.advance := by
  rw [Cipher.nextByte, Cipher.use_succ, Cipher.use, Cipher.refill_open h]
  exact ⟨rfl, rfl⟩

/-- Settles O38: the two cases of one byte, and `Cipher.use_add`. -/
theorem streamByteRegeneratesLazily : Obligations.StreamByteRegeneratesLazily := by
  refine fun c hpos => ⟨fun h64 => ?exhausted, fun h64 => ?inUse, fun m n => c.use_add m n, rfl⟩
  case exhausted =>
    obtain ⟨hbyte, huse⟩ := Cipher.useOne_exhausted h64
    rw [huse]
    exact ⟨hbyte, rfl, rfl, rfl⟩
  case inUse =>
    obtain ⟨hbyte, huse⟩ := Cipher.useOne_open h64
    have hlt : c.pos.toNat < 64 := Nat.lt_of_le_of_ne hpos (mt pos_eq_64.mpr h64)
    rw [huse]
    exact ⟨hbyte, rfl, rfl, pos_toNat_advance hlt⟩

/-! ## DISCARD in closed form (R153) -/

theorem Cipher.incCtr_st (c : Cipher) (k : DWord) : (c.incCtr k).st = withCtr (c.ctr + k) c.st := rfl

theorem Cipher.block_st (c : Cipher) : c.block.st = withCtr (c.ctr + 1) c.st := rfl

section
variable {c : Cipher} (hpos : c.pos.toNat ≤ 64)
include hpos

theorem Cipher.pos_discard_within {n : Nat} (h : n ≤ 64 - c.pos.toNat) : (c.discard n).pos.toNat = c.pos.toNat + n := by
  rw [Cipher.discard_within hpos h, Cipher.consume_pos, BitVec.toNat_ofNat]
  omega

/-- To a later block boundary: the counter skips whole blocks. -/
theorem Cipher.discard_boundary {n m : Nat} (hn : n = (64 - c.pos.toNat) + m) (hm : m % 64 = 0) :
    c.discard n = { c with st := withCtr (c.ctr + BitVec.ofNat 64 (m / 64)) c.st, pos := 64 } := by
  rw [Cipher.discard_beyond hpos (by omega), show n - (64 - c.pos.toNat) = m by omega, Cipher.skipBlocks_whole hm]
  rfl

/-- Into a later block: that block is generated, and the counter is past it. -/
theorem Cipher.discard_intoBlock {n m : Nat} (hn : n = (64 - c.pos.toNat) + m) (hm : m % 64 ≠ 0) :
    c.discard n = { st := withCtr (c.ctr + BitVec.ofNat 64 (m / 64) + 1) c.st
                    ks := blockFn c.st (c.ctr + BitVec.ofNat 64 (m / 64))
                    pos := BitVec.ofNat 7 (m % 64) } := by
  rw [Cipher.discard_beyond hpos (by omega), show n - (64 - c.pos.toNat) = m by omega, Cipher.skipBlocks_part hm]
  simp only [Cipher.block_st, Cipher.block_ks, Cipher.ctr_incCtr, Cipher.incCtr_st, withCtr_withCtr]
  rfl

end

theorem Cipher.ctr_of_withCtr {c : Cipher} {v : DWord} {st : Matrix} (h : c.st = withCtr v st) : c.ctr = v := by
  rw [Cipher.ctr_congr (d := Cipher.setCtr v { c with st := st }) h, Cipher.ctr_setCtr]

/-- Settles O39: DISCARD within the block in use, to a block boundary and into a later block. -/
theorem discardSeeks : Obligations.DiscardSeeks := by
  intro s c hi hpos
  refine ⟨_, exec_discard_of_inited hi, rfl, fun i h12 h13 => s.cipher.discard_other _ h12 h13, fun hwithin => ?within,
    fun m hc hm => ⟨fun hboundary => ?boundary, fun hinto => ?into⟩⟩
  case within =>
    refine ⟨?_, ?_, Cipher.pos_discard_within hpos hwithin⟩ <;> rw [Cipher.discard_within hpos hwithin] <;> rfl
  case boundary =>
    rw [Cipher.discard_boundary hpos hc hboundary]
    exact ⟨Cipher.ctr_of_withCtr rfl, rfl, rfl⟩
  case into =>
    rw [Cipher.discard_intoBlock hpos hc hinto]
    exact ⟨Cipher.ctr_of_withCtr rfl, rfl, by rw [BitVec.toNat_ofNat]; omega⟩

/-! ## The counter counts blocks (R137, R199) -/

theorem Cipher.ctr_discard {c : Cipher} (hpos : c.pos.toNat ≤ 64) (n : Nat) :
    (c.discard n).ctr = c.ctr + BitVec.ofNat 64 (blocksBeyond c.pos.toNat n) := by
  rw [blocksBeyond]
  split
  · next hwithin =>
    rw [Cipher.discard_within hpos hwithin]
    exact (BitVec.add_zero _).symm
  · next hbeyond =>
    obtain ⟨m, hm⟩ : ∃ m, n = (64 - c.pos.toNat) + m := ⟨n - (64 - c.pos.toNat), by omega⟩
    by_cases hrem : m % 64 = 0
    · rw [Cipher.discard_boundary hpos hm hrem, Cipher.ctr_of_withCtr rfl,
        show (n - (64 - c.pos.toNat) + 63) / 64 = m / 64 by omega]
    · rw [Cipher.discard_intoBlock hpos hm hrem, Cipher.ctr_of_withCtr rfl,
        show (n - (64 - c.pos.toNat) + 63) / 64 = m / 64 + 1 by omega, BitVec.ofNat_add, BitVec.add_assoc]
      rfl

/-- Using bytes one by one moves the counter as DISCARD does. -/
theorem Cipher.ctr_use {c : Cipher} (hpos : c.pos.toNat ≤ 64) (n : Nat) :
    (c.use n).ctr = c.ctr + BitVec.ofNat 64 (blocksBeyond c.pos.toNat n) := by
  rw [← Cipher.ctr_congr (Cipher.discard_same_use hpos n).st, Cipher.ctr_discard hpos]

/-- Settles O40: `Cipher.ctr_start`, and the closed form for CRYPT and DISCARD. -/
theorem counterCountsBlocks : Obligations.CounterCountsBlocks := by
  refine fun s t a b c _ hpos ht => ⟨fun h => ?init, fun h => ?hchacha20, fun h => ?moves⟩
  case init =>
    obtain ⟨-, -, -, rfl⟩ := execInit_completed h ht
    exact s.cipher.ctr_start _ _
  case hchacha20 =>
    obtain ⟨-, hcipher, -⟩ := hchachaFrame s t a b c h
    rw [hcipher]
  case moves =>
    rcases h with h | h
    · obtain ⟨-, -, -, -, -, rfl⟩ := execCrypt_completed h ht
      exact Cipher.ctr_use hpos c.toNat
    · obtain ⟨-, -, rfl⟩ := execDiscard_completed h ht
      exact Cipher.ctr_discard hpos c.toNat

/-! ## One CRYPT in two (R156) -/

theorem State.cryptLoop_add (m n a b : Nat) (s : State) :
    s.cryptLoop (m + n) a b = (s.cryptLoop m a b).cryptLoop n (a + m) (b + m) := by
  induction m generalizing a b s with
  | zero => rw [Nat.zero_add]; rfl
  | succ m ih =>
    rw [show m + 1 + n = (m + n) + 1 by omega, State.cryptLoop, State.cryptLoop, ih, show a + 1 + m = a + (m + 1) by omega,
      show b + 1 + m = b + (m + 1) by omega]

/-- The loop of CRYPT neither reads nor writes `BUSY`. -/
theorem State.cryptLoop_complete (n a b : Nat) (s : State) : s.complete.cryptLoop n a b = (s.cryptLoop n a b).complete := by
  induction n generalizing a b s with
  | zero => rfl
  | succ n ih => exact ih (a + 1) (b + 1) (s.cryptByte a b)

section
variable (n a b : Nat) (s : State)

theorem State.cryptLoop_fault : (s.cryptLoop n a b).fault = s.fault := by rw [cryptLoop_eq]
theorem State.cryptLoop_inited : (s.cryptLoop n a b).inited = s.inited := by rw [cryptLoop_eq]
theorem State.cryptLoop_memSize : (s.cryptLoop n a b).memSize = s.memSize := by rw [cryptLoop_eq]

end

/-- CRYPT whose checks pass is its loop. -/
theorem exec_crypt_loop {s : State} {a b c : DWord} (hi : s.inited = true) (ha : s.fits a c.toNat) (hb : s.fits b c.toNat)
    (ho : sameOrDisjoint a b c.toNat) : exec (.crypt a b c) s = .next (s.cryptLoop c.toNat a.toNat b.toNat).complete := by
  simp [execCrypt, hi, valid_iff_fits.mpr ha, valid_iff_fits.mpr hb, overlap_false.mpr ho]

/-- Settles O47: both parts pass their checks, and the loop of the whole is that of the first part and then that of the second. -/
theorem cryptChunksCompose : Obligations.CryptChunksCompose := by
  intro s t a b m n hsum hsize hf h ht
  obtain ⟨-, hi, ha, hb, ho, -⟩ := execCrypt_completed h ht
  rw [valid_iff_fits] at ha hb
  rw [overlap_false] at ho
  obtain rfl := Host.Outcome.next.inj ((exec_crypt_loop hi ha hb ho).symm.trans h)
  have hlen : (m + n).toNat = m.toNat + n.toNat := BitVec.toNat_add_of_lt hsum
  rw [hlen] at ha hb ho ht ⊢
  have hfirst : exec (.crypt a b m) s = .next (s.cryptLoop m.toNat a.toNat b.toNat).complete :=
    exec_crypt_loop hi (by omega) (by omega) (ho.imp (by omega) (Or.imp_right (by omega)))
  refine ⟨_, _, hfirst, ?fault, ?second, ht, rfl⟩
  case fault => rw [State.complete_fault, State.cryptLoop_fault, hf]
  have hi' : (s.cryptLoop m.toNat a.toNat b.toNat).complete.inited = true := by
    rw [State.complete_inited, State.cryptLoop_inited, hi]
  by_cases hn : n.toNat = 0
  · obtain rfl : n = 0 := BitVec.eq_of_toNat_eq hn
    exact exec_crypt_zero hi' (a + m) (b + m)
  · have hsize' : (s.cryptLoop m.toNat a.toNat b.toNat).complete.memSize = s.memSize := by
      rw [State.complete_memSize, State.cryptLoop_memSize]
    have ham : (a + m).toNat = a.toNat + m.toNat := BitVec.toNat_add_of_lt (by omega)
    have hbm : (b + m).toNat = b.toNat + m.toNat := BitVec.toNat_add_of_lt (by omega)
    rw [exec_crypt_loop hi' (by omega) (by omega) (ho.imp (by omega) (Or.imp (congrArg (· + m)) (by omega))), ham, hbm,
      State.cryptLoop_complete, State.cryptLoop_add]
    rfl

/-! ## Two DISCARDs in one (R197) -/

/-- Two DISCARDs and the one of their sum: no later keystream byte tells them apart. -/
theorem Cipher.discard_discard_same {c : Cipher} (hpos : c.pos.toNat ≤ 64) (m n : Nat) :
    ((c.discard m).discard n).Same (c.discard (m + n)) := by
  have hfirst := Cipher.discard_same_use hpos m
  have hpos' : (c.discard m).pos.toNat ≤ 64 := hfirst.pos ▸ Cipher.pos_use_le hpos m
  have hboth : ((c.discard m).discard n).Same (c.use (m + n)) := by
    rw [c.use_add]
    exact (Cipher.discard_same_use hpos' n).trans (hfirst.use n)
  exact hboth.trans (Cipher.discard_same_use hpos (m + n)).symm

/-- Settles O48: `Cipher.discard_discard_same` at the cipher states the DISCARDs leave. -/
theorem discardsAdd : Obligations.DiscardsAdd := by
  intro s t u v m n hsum hi hpos ht hu hv
  rw [exec_discard_of_inited hi] at ht hv
  obtain rfl := Host.Outcome.next.inj ht
  rw [exec_discard_of_inited (by exact hi)] at hu
  obtain rfl := Host.Outcome.next.inj hu
  obtain rfl := Host.Outcome.next.inj hv
  have hsame := Cipher.discard_discard_same hpos m.toNat n.toNat
  rw [← BitVec.toNat_add_of_lt hsum] at hsame
  exact ⟨hsame.st, hsame.pos, fun k => (hsame.use k).nextByte⟩

/-! ## Round all 2^64 blocks (R136) -/

/-- A cipher state that meets R155 is at some position of the stream of its own matrix. -/
theorem Cipher.exists_atPosition {c : Cipher} (hlow : 1 ≤ c.pos.toNat) (hhigh : c.pos.toNat ≤ 64)
    (hks : c.pos.toNat < 64 → c.ks = blockFn c.st (c.ctr - 1)) : ∃ p, c.AtPosition c.st p := by
  by_cases h64 : c.pos.toNat = 64
  · refine ⟨64 * c.ctr.toNat, fun _ _ _ => rfl, ?_, by omega, fun hp => absurd hp (by omega)⟩
    rw [show (64 * c.ctr.toNat + 63) / 64 = c.ctr.toNat by omega, BitVec.ofNat_toNat, BitVec.setWidth_eq]
  · refine ⟨64 * (c.ctr - 1).toNat + c.pos.toNat, fun _ _ _ => rfl, ?ctr, by omega, fun _ => ?ks⟩
    case ctr =>
      rw [show (64 * (c.ctr - 1).toNat + c.pos.toNat + 63) / 64 = (c.ctr - 1).toNat + 1 by omega, BitVec.ofNat_add,
        BitVec.ofNat_toNat, BitVec.setWidth_eq]
      exact (BitVec.sub_add_cancel c.ctr 1).symm
    case ks =>
      rw [hks (by omega), show (64 * (c.ctr - 1).toNat + c.pos.toNat) / 64 = (c.ctr - 1).toNat by omega,
        BitVec.ofNat_toNat, BitVec.setWidth_eq]

/-- Positions 2^64 blocks apart have one block number. -/
theorem ofNat_block_wrap (k : Nat) : BitVec.ofNat 64 (k + 2 ^ 64) = BitVec.ofNat 64 k := by
  apply BitVec.eq_of_toNat_eq
  simp

/-- Settles O49: 2^64 blocks on, the closed form of the stream position has the same counter, cursor and byte. -/
theorem keystreamRepeatsAfterWrap : Obligations.KeystreamRepeatsAfterWrap := by
  intro c hlow hhigh hks
  obtain ⟨p, hp⟩ := Cipher.exists_atPosition hlow hhigh hks
  have hround := hp.use (64 * 2 ^ 64)
  refine ⟨?ctr, BitVec.eq_of_toNat_eq ?pos, fun n => ?byte⟩
  case ctr =>
    rw [hround.ctr, hp.ctr, show (p + 64 * 2 ^ 64 + 63) / 64 = (p + 63) / 64 + 2 ^ 64 by omega, ofNat_block_wrap]
  case pos =>
    rw [hround.pos, hp.pos]
    omega
  case byte =>
    rw [(hp.use (64 * 2 ^ 64 + n)).nextByte, (hp.use n).nextByte,
      show (p + (64 * 2 ^ 64 + n)) / 64 = (p + n) / 64 + 2 ^ 64 by omega,
      show (p + (64 * 2 ^ 64 + n)) % 64 = (p + n) % 64 by omega, ofNat_block_wrap]

end Sys2Proof.Machine
end

section
/-! PROOFS. What holds between commands (Safety): memory, the cursor, the stream and the fault record, each kept by every step. -/

namespace Sys2Proof.Machine

/-- Settles O59: `step_mem_wf`, which earlier proofs of the stream needed. -/
theorem stepKeepsMemoryCanonical : Obligations.StepKeepsMemoryCanonical := fun _ _ => step_mem_wf

/-! ## The cursor (R28) -/

/-- Using bytes keeps the cursor in `[1, 64]`. -/
theorem Cipher.pos_use_range {c : Cipher} (h : 1 ≤ c.pos.toNat ∧ c.pos.toNat ≤ 64) (n : Nat) :
    1 ≤ (c.use n).pos.toNat ∧ (c.use n).pos.toNat ≤ 64 := by
  obtain ⟨hlow, hhigh⟩ := h
  refine ⟨?_, Cipher.pos_use_le hhigh n⟩
  cases n with
  | zero => exact hlow
  | succ n => exact Cipher.pos_use_pos hhigh n.succ_pos

theorem exec_posOk {i : Instr} {s t : State} (hs : s.posOk) (h : exec i s = .next t) : t.posOk := by
  cases i with
  | init a b =>
    rcases exec_init_next h with ⟨cause, info, rfl⟩ | rfl
    · exact hs
    · exact fun _ => (by decide : 1 ≤ (64 : BitVec 7).toNat ∧ (64 : BitVec 7).toNat ≤ 64)
  | crypt a b c =>
    rcases exec_crypt_next h with ⟨cause, info, rfl⟩ | ⟨hi, -, rfl⟩
    · exact hs
    · exact fun _ => Cipher.pos_use_range (hs hi) c.toNat
  | discard c =>
    rcases exec_discard_next h with ⟨cause, info, rfl⟩ | ⟨hi, rfl⟩
    · exact hs
    · have hsame := Cipher.discard_same_use (hs hi).2 c.toNat
      exact fun _ => hsame.pos ▸ Cipher.pos_use_range (hs hi) c.toNat
  | hchacha20 a b c =>
    rcases exec_hchacha20_next h with ⟨cause, info, rfl⟩ | ⟨-, sk, -, rfl⟩
    · exact hs
    · exact hs

/-- Settles O58: every command keeps the cursor in range, and RESET leaves `INITED = 0`. -/
theorem stepKeepsCursorInRange : Obligations.StepKeepsCursorInRange := by
  intro s t hs h
  rcases step_next_cases h with ⟨-, rfl⟩ | ⟨d, rest, -, -, -, hend⟩ | ⟨i, rest, -, rfl⟩ | ⟨a, rest, -, -, rfl⟩ |
    ⟨a, v, rest, -, -, rfl⟩ | ⟨rest, -, rfl⟩
  · exact hs
  · rcases hend with ⟨cause, info, rfl⟩ | ⟨i, c, m, b, -, hexec, -⟩
    · exact hs
    · exact exec_posOk (s := State.accept { s with script := rest }) hs hexec
  · exact hs
  · exact hs
  · exact hs
  · exact nofun

/-! ## `BUSY` (R31) -/

theorem step_keeps_idle {s t : State} (hs : s.busy = false) (h : step s = .next t) : t.busy = false := by
  rcases step_next_cases h with ⟨-, rfl⟩ | ⟨d, rest, hsub, -, -, -⟩ | ⟨i, rest, -, rfl⟩ | ⟨a, rest, -, -, rfl⟩ |
    ⟨a, v, rest, -, -, rfl⟩ | ⟨rest, -, rfl⟩
  · exact hs
  · exact (step_submit_leaves hsub h).1
  · exact hs
  · exact hs
  · exact hs
  · rfl

/-! ## Memory (R8, R50) -/

theorem step_memSize {s t : State} (h : step s = .next t) : t.memSize = s.memSize := by
  rcases step_next_cases h with ⟨-, rfl⟩ | ⟨d, rest, -, -, -, hend⟩ | ⟨i, rest, -, rfl⟩ | ⟨a, rest, -, -, rfl⟩ |
    ⟨a, v, rest, -, -, rfl⟩ | ⟨rest, -, rfl⟩
  · rfl
  · rcases hend with ⟨cause, info, rfl⟩ | ⟨i, c, m, b, -, -, rfl⟩
    · rfl
    · rfl
  · rfl
  · rfl
  · rfl
  · rfl

/-- A store into an admitted range, an empty one too, lists no byte outside memory. -/
theorem below_writeBytes_of_fits {s : State} (hs : Memory.below s.memSize s.mem) {a : DWord} {bs : Bytes} (h : s.fits a bs.length) :
    Memory.below s.memSize (s.mem.writeBytes a.toNat bs) := by
  rcases h with h | h
  · rw [List.length_eq_zero_iff.mp h]
    exact hs
  · exact Memory.below_writeBytes hs h

theorem exec_mem_below {i : Instr} {s t : State} (hs : Memory.below s.memSize s.mem) (h : exec i s = .next t) :
    Memory.below s.memSize t.mem := by
  cases i with
  | init a b => rcases exec_init_next h with ⟨cause, info, rfl⟩ | rfl <;> exact hs
  | crypt a b c =>
    rcases exec_crypt_next h with ⟨cause, info, rfl⟩ | ⟨-, hb, rfl⟩
    · exact hs
    · refine below_writeBytes_of_fits hs ?_
      rwa [State.memRead, length_cryptOutput]
  | discard c => rcases exec_discard_next h with ⟨cause, info, rfl⟩ | ⟨-, rfl⟩ <;> exact hs
  | hchacha20 a b c =>
    rcases exec_hchacha20_next h with ⟨cause, info, rfl⟩ | ⟨hc, sk, hlen, rfl⟩
    · exact hs
    · exact below_writeBytes_of_fits hs (by rwa [hlen])

theorem step_mem_below {s t : State} (hs : Memory.below s.memSize s.mem) (h : step s = .next t) : Memory.below s.memSize t.mem := by
  rcases step_next_cases h with ⟨-, rfl⟩ | ⟨d, rest, -, -, -, hend⟩ | ⟨i, rest, -, rfl⟩ | ⟨a, rest, -, -, rfl⟩ |
    ⟨a, v, rest, -, ha, rfl⟩ | ⟨rest, -, rfl⟩
  · exact hs
  · rcases hend with ⟨cause, info, rfl⟩ | ⟨i, c, m, b, -, hexec, -⟩
    · exact hs
    · exact exec_mem_below (s := State.accept { s with script := rest }) hs hexec
  · exact hs
  · exact hs
  · exact Memory.below_write hs ha v
  · exact hs

theorem step_memOk {s t : State} (hs : s.memOk) (h : step s = .next t) : t.memOk := by
  obtain ⟨hwf, hlegal, hbelow⟩ := hs
  have hsize := step_memSize h
  exact ⟨step_mem_wf hwf h, hsize ▸ hlegal, hsize ▸ step_mem_below hbelow h⟩

/-! ## The stream (R24, R28, R155) -/

/-- While `INITED = 1` the core is at some position of the stream of some matrix that begins with SIGMA: the three clauses of
`State.Inv` about the cipher state in one, by `State.onSomeStream_iff`. -/
def State.OnSomeStream (s : State) : Prop :=
  s.inited = true → ∃ m p, s.OnStream m p ∧ ∀ i : Fin 4, m[i.val] = sigma[i]

/-- At a stream position the block in use is that of the counter before the last BLOCK. -/
theorem Cipher.AtPosition.ks_eq {c : Cipher} {m : Matrix} {p : Nat} (h : c.AtPosition m p) (hopen : c.pos.toNat < 64) :
    c.ks = blockFn c.st (c.ctr - 1) := by
  have hpos := h.pos
  rw [h.ks (by omega), h.ctr, blockFn_congr h.matrix, show (p + 63) / 64 = p / 64 + 1 by omega, BitVec.ofNat_add]
  congr 1
  exact (BitVec.add_sub_cancel _ 1).symm

theorem State.onSomeStream_iff {s : State} : s.OnSomeStream ↔ s.posOk ∧ s.sigmaOk ∧ s.ksOk := by
  constructor
  · intro h
    refine ⟨fun hi => ?pos, fun hi i => ?sigma, fun hi hopen => ?ks⟩ <;>
      obtain ⟨m, p, ⟨-, hat⟩, hsigma⟩ := h hi
    case pos =>
      have hpos := hat.pos
      omega
    case sigma =>
      rw [← hsigma i]
      exact hat.matrix ⟨i.val, by omega⟩ (Fin.ne_of_lt (show i.val < 12 by omega)) (Fin.ne_of_lt (show i.val < 13 by omega))
    case ks => exact hat.ks_eq hopen
  · rintro ⟨hpos, hsigma, hks⟩ hi
    obtain ⟨hlow, hhigh⟩ := hpos hi
    obtain ⟨p, hp⟩ := Cipher.exists_atPosition hlow hhigh (hks hi)
    exact ⟨s.cipher.st, p, ⟨hi, hp⟩, hsigma hi⟩

theorem step_onSomeStream {s t : State} (hs : s.OnSomeStream) (h : step s = .next t) : t.OnSomeStream := by
  intro hi
  by_cases hinit : ∃ d rest a b, s.script = .submit d :: rest ∧ decode d = .ok (.init a b) ∧ t.fault = false
  · obtain ⟨d, rest, a, b, hscript, hd, hf⟩ := hinit
    exact ⟨_, 0, exec_init_onStream (step_submit_decoded h hscript hd) hf, initMatrix_sigma _ _⟩
  · rcases step_inited h with hkept | ⟨rest, hscript⟩ | hcompleted
    · obtain ⟨m, p, hon, hsigma⟩ := hs (hkept ▸ hi)
      cases hscript : s.script with
      | nil =>
        obtain rfl := Host.Outcome.next.inj ((step_idle hscript).symm.trans h)
        exact ⟨m, p, hon, hsigma⟩
      | cons x rest =>
        refine ⟨m, _, step_onStream hon h hscript ?reset ?init, hsigma⟩
        case reset =>
          rintro rfl
          simp [step_reset h hscript] at hi
        case init =>
          rintro d a b rfl hd
          exact Bool.eq_true_of_not_eq_false fun hf => hinit ⟨d, rest, a, b, hscript, hd, hf⟩
    · simp [step_reset h hscript] at hi
    · exact absurd hcompleted hinit

/-! ## The fault record (R171, R175 to R179) -/

section
variable (s : State) {info : DWord}

theorem faultOk_illegalOpcode (h : info.toNat % 256 = 0 ∨ 5 ≤ info.toNat % 256) : (s.faultEntry .illegalOpcode info).faultOk :=
  .inl ⟨rfl, h⟩

theorem faultOk_reservedNonzero (h : info.toNat ≤ 3) : (s.faultEntry .reservedNonzero info).faultOk :=
  .inr (.inl ⟨rfl, h⟩)

theorem faultOk_notInitialized (hi : s.inited = false) : (s.faultEntry .notInitialized 0).faultOk :=
  .inr (.inr (.inl ⟨rfl, rfl, hi⟩))

theorem faultOk_access (h : 1 ≤ info.toNat ∧ info.toNat ≤ 3) : (s.faultEntry .access info).faultOk :=
  .inr (.inr (.inr (.inl ⟨rfl, h⟩)))

theorem faultOk_overlap (hi : s.inited = true) : (s.faultEntry .overlap 2).faultOk :=
  .inr (.inr (.inr (.inr ⟨rfl, rfl, hi⟩)))

end

theorem faultOk_iff_of_noFault {s : State} (h : s.fault = false) : s.faultOk ↔ s.cause = 0 ∧ s.info = 0 := by
  simp [State.faultOk, h]

theorem firstFailing_cons_eq_some {fails : Bool} {x y : Cause × DWord} {cs : List (Bool × Cause × DWord)} :
    firstFailing ((fails, x) :: cs) = some y ↔ (fails = true ∧ x = y) ∨ (fails = false ∧ firstFailing cs = some y) := by
  cases fails <;> simp

/-- The fault a command's first failing check raises is one the spec can leave. -/
theorem faultOk_of_firstFailing {i : Instr} {s : State} {cause : Cause} {info : DWord}
    (h : firstFailing (commandChecks s i) = some (cause, info)) : (s.faultEntry cause info).faultOk := by
  cases i with
  | init a b =>
    simp only [commandChecks, firstFailing_cons_eq_some, Prod.mk.injEq] at h
    obtain ⟨-, rfl, rfl⟩ | ⟨-, ⟨-, rfl, rfl⟩ | ⟨-, h⟩⟩ := h
    · exact faultOk_access s (by decide)
    · exact faultOk_access s (by decide)
    · cases h
  | crypt a b c =>
    simp only [commandChecks, firstFailing_cons_eq_some, Prod.mk.injEq, Bool.not_eq_true', Bool.not_eq_false'] at h
    obtain ⟨hi, rfl, rfl⟩ | ⟨hi, ⟨-, rfl, rfl⟩ | ⟨-, ⟨-, rfl, rfl⟩ | ⟨-, ⟨-, rfl, rfl⟩ | ⟨-, h⟩⟩⟩⟩ := h
    · exact faultOk_notInitialized s hi
    · exact faultOk_access s (by decide)
    · exact faultOk_access s (by decide)
    · exact faultOk_overlap s hi
    · cases h
  | discard c =>
    simp only [commandChecks, firstFailing_cons_eq_some, Prod.mk.injEq, Bool.not_eq_true'] at h
    obtain ⟨hi, rfl, rfl⟩ | ⟨-, h⟩ := h
    · exact faultOk_notInitialized s hi
    · cases h
  | hchacha20 a b c =>
    simp only [commandChecks, firstFailing_cons_eq_some, Prod.mk.injEq] at h
    obtain ⟨-, rfl, rfl⟩ | ⟨-, ⟨-, rfl, rfl⟩ | ⟨-, ⟨-, rfl, rfl⟩ | ⟨-, h⟩⟩⟩ := h
    · exact faultOk_access s (by decide)
    · exact faultOk_access s (by decide)
    · exact faultOk_access s (by decide)
    · cases h

/-- The fault of a descriptor that does not decode is one the spec can leave. -/
theorem faultOk_of_rejected {d : Descriptor} {r : Reject} (h : decode d = .error r) (s : State) :
    (s.faultEntry (rejectCause r) (rejectInfo r)).faultOk := by
  rcases decode_cases d with ⟨hop, e⟩ | ⟨op, -, -, e⟩ | ⟨op, w, -, -, -, e⟩ | ⟨op, -, -, -, e⟩ <;> rw [e] at h <;> cases h
  · exact faultOk_illegalOpcode s (opcodeValue_of_ofByte_none hop)
  · exact faultOk_reservedNonzero s (by decide)
  · exact faultOk_reservedNonzero s (by fin_cases w <;> decide)

theorem exec_faultOk {i : Instr} {s t : State} (hs : s.fault = false) (hok : s.faultOk) (h : exec i s = .next t) : t.faultOk := by
  cases hfail : firstFailing (commandChecks s i) with
  | none =>
    obtain ⟨u, hu, hfault, -⟩ := (exec_reports i s).completes hfail
    obtain rfl := Host.Outcome.next.inj (hu.symm.trans h)
    have ht := hfault.trans hs
    obtain ⟨hcause, hinfo⟩ := (exec_sameRecord h).none ht
    rw [faultOk_iff_of_noFault ht, hcause, hinfo]
    exact (faultOk_iff_of_noFault hs).mp hok
  | some x =>
    obtain rfl := Host.Outcome.next.inj ((exec_faultEntry hfail).symm.trans h)
    exact faultOk_of_firstFailing hfail

theorem step_faultOk {s t : State} (hs : s.faultOk) (h : step s = .next t) : t.faultOk := by
  rcases step_next_cases h with ⟨-, rfl⟩ | ⟨d, rest, hscript, hf, -, -⟩ | ⟨i, rest, -, rfl⟩ | ⟨a, rest, -, -, rfl⟩ |
    ⟨a, v, rest, -, -, rfl⟩ | ⟨rest, -, rfl⟩
  · exact hs
  · obtain ⟨-, -, ⟨r, hd, rfl⟩ | ⟨i, -, hexec⟩⟩ := hostSubmit_next (step_submit h hscript).2
    · exact faultOk_of_rejected hd _
    · exact exec_faultOk (s := State.accept { s with script := rest }) hf hs hexec
  · exact hs
  · exact hs
  · exact hs
  · exact ⟨rfl, rfl⟩

/-! ## The invariant -/

/-- Settles O57: each clause by its own lemma, the three of the cipher state at once as `State.OnSomeStream`. -/
theorem stepKeepsInvariant : Obligations.StepKeepsInvariant := by
  rintro s t ⟨hidle, hmem, hpos, hsigma, hks, hfault⟩ h
  obtain ⟨hpos', hsigma', hks'⟩ :=
    State.onSomeStream_iff.mp (step_onSomeStream (State.onSomeStream_iff.mpr ⟨hpos, hsigma, hks⟩) h)
  exact ⟨step_keeps_idle hidle h, step_memOk hmem h, hpos', hsigma', hks', step_faultOk hfault h⟩

/-- Settles O56: memory lists nothing and its size is legal, `INITED = 0`, and no fault is recorded. -/
theorem resetMeetsInvariant : Obligations.ResetMeetsInvariant where
  idle := rfl
  mem := ⟨⟨List.Pairwise.nil, nofun⟩, by decide, nofun⟩
  pos := nofun
  sigma := nofun
  ks := nofun
  fault := ⟨rfl, rfl⟩

end Sys2Proof.Machine
end

section
/-! PROOFS. Several cores (10_state.md R41): what one core's step does to the platform. -/

namespace Sys2Proof.Machine

namespace Platform

variable {p q : Platform} {k : Nat}

/-- A platform steps where its core `k` does. -/
theorem stepCore_next (h : p.stepCore k = some (.next q)) :
    ∃ s t, p.cores[k]? = some s ∧ step s = .next t ∧ q = p.update k t := by
  rw [Platform.stepCore] at h
  split at h
  · cases h
  · next s hs =>
    split at h
    · next t ht =>
      cases h
      exact ⟨s, t, hs, ht, rfl⟩
    · cases h
    · cases h

theorem numInstances_update (t : State) : (p.update k t).numInstances = p.numInstances := by
  simp [Platform.numInstances, Platform.update]

theorem update_core {s : State} (hs : p.cores[k]? = some s) (t : State) : (p.update k t).cores[k]? = some t := by
  obtain ⟨hk, -⟩ := List.getElem?_eq_some_iff.mp hs
  simp [Platform.update, hk]

/-- The other cores see the stepped core's memory, and nothing else of theirs changes. -/
theorem update_other {j : Nat} {s : State} (hj : j ≠ k) (hs : p.cores[j]? = some s) (t : State) :
    (p.update k t).cores[j]? = some (s.withMem t.mem) := by
  simp [Platform.update, hj.symm, hs]

theorem mem_update {t x : State} (h : x ∈ (p.update k t).cores) : x = t ∨ ∃ y ∈ p.cores, x = y.withMem t.mem := by
  rcases List.mem_or_eq_of_mem_set h with h | h
  · obtain ⟨y, hy, rfl⟩ := List.mem_map.mp h
    exact .inr ⟨y, hy, rfl⟩
  · exact .inl h

/-- A step of a core keeps the platform one: as many cores, that see one memory of the one legal size. -/
theorem legal_update (hp : p.Legal) {s t : State} (hs : p.cores[k]? = some s) (h : step s = .next t) : (p.update k t).Legal := by
  have hmem : s ∈ p.cores := List.mem_of_getElem? hs
  have hview : ∀ x ∈ (p.update k t).cores, x.mem = t.mem ∧ x.memSize = s.memSize := by
    intro x hx
    rcases mem_update hx with rfl | ⟨y, hy, rfl⟩
    · exact ⟨rfl, step_memSize h⟩
    · exact ⟨rfl, (hp.shared y hy s hmem).2⟩
  refine ⟨?cores, fun x hx => ?size, fun x hx y hy => ?shared⟩
  case cores =>
    rw [numInstances_update]
    exact hp.numInstances
  case size =>
    rw [(hview x hx).2]
    exact hp.memSize s hmem
  case shared =>
    obtain ⟨hxm, hxs⟩ := hview x hx
    obtain ⟨hym, hys⟩ := hview y hy
    exact ⟨hxm.trans hym.symm, hxs.trans hys.symm⟩

end Platform

/-- Settles O60: the step is `Platform.update` with that core's next state, which `State.withMem` gives the others' view of. -/
theorem coresShareOnlyMemory : Obligations.CoresShareOnlyMemory := by
  intro p q k hp h
  obtain ⟨s, t, hs, hstep, rfl⟩ := Platform.stepCore_next h
  refine ⟨Platform.legal_update hp hs hstep, Platform.numInstances_update t, fun j u hj hu => ?others, fun u hu => ?core⟩
  case others => exact ⟨_, Platform.update_other hj hu t, rfl⟩
  case core =>
    obtain rfl := Option.some.inj (hs.symm.trans hu)
    exact ⟨t, Platform.update_core hs t, hstep⟩

end Sys2Proof.Machine
end
